-- ==== Sys2Proof/Word.lean ====
section
/-! DEFINITION. The widths of frisky CORE's values (00_scope.md R7): each is an abbreviation of a bit vector. -/

namespace Sys2Proof

/-- `XLEN` = 8: the width of `A`, `B`, `I`, of a memory cell and of the bus (R7). -/
abbrev Byte := BitVec 8

/-- `ALEN` = 4: the width of a memory address, of `M` and of `C`, and of the two fields of an instruction byte (R7, R74). -/
abbrev Nibble := BitVec 4

/-- `TLEN` = 3: the width of the micro-step number `T` (R7). -/
abbrev MicroNumber := BitVec 3

/-- `CWLEN` = 16: the width of a control word, raw or effective (R7). -/
abbrev ControlWord := BitVec 16

/-- `IDXLEN` = 10: the width of a control-table index (R7). -/
abbrev TableIndex := BitVec 10

end Sys2Proof
end

