-- ==== Sys2Proof/Syntax.lean ====
section
/-! DEFINITION. The syntax of frisky CORE: the sixteen control lines, a control word as the set of its asserted
lines (30_encoding.md R71, R73, R84), and one instruction constructor for each row of the opcode table (R86). -/

namespace Sys2Proof

/-- The sixteen control lines, in the order of the opcode table (30_encoding.md R71). -/
inductive Line where
  | hlt  -- halt line (R124)
  | mi  -- memory-address-write, a consumer: `M` takes the bus (R160)
  | ri  -- memory-write, a consumer: the cell at `M` takes the bus (R161)
  | ro  -- memory-read, a driver: the bus takes the cell at `M` (R140)
  | io  -- instruction-read, a driver: the bus takes the low nibble of `I` (R141)
  | ii  -- instruction-write, a consumer: `I` takes the bus (R162)
  | ai  -- accumulator-write, a consumer: `A` takes the bus (R163)
  | ao  -- accumulator-read, a driver: the bus takes `A` (R142)
  | eo  -- ALU-output, a driver: the bus takes `A + B` or `A - B` (R143)
  | su  -- subtract modifier of EO (R144)
  | bi  -- B-register-write, a consumer: `B` takes the bus (R164)
  | oi  -- output-write, a consumer: the bus value is emitted (R166)
  | ce  -- counter-increment (R180)
  | co  -- counter-read, a driver: the bus takes `C` (R145)
  | j  -- jump, a consumer: `C` takes the bus (R167)
  | fi  -- flags-update, reserved: no effect (R181)
  deriving DecidableEq, Repr

/-- All sixteen lines, in the table's order. -/
def Line.all : List Line :=
  [.hlt, .mi, .ri, .ro, .io, .ii, .ai, .ao, .eo, .su, .bi, .oi, .ce, .co, .j, .fi]

/-- An effective control word as the set of its asserted lines (R73, R84): a field is true when the line is
asserted. With no field given, no line is asserted. -/
structure Lines where
  hlt : Bool := false
  mi : Bool := false
  ri : Bool := false
  ro : Bool := false
  io : Bool := false
  ii : Bool := false
  ai : Bool := false
  ao : Bool := false
  eo : Bool := false
  su : Bool := false
  bi : Bool := false
  oi : Bool := false
  ce : Bool := false
  co : Bool := false
  j : Bool := false
  fi : Bool := false
  deriving DecidableEq, Repr

/-- The word with no line asserted, written `0` by R84. -/
def Lines.empty : Lines := {}

/-- `line(cw, L)` of R73 on a word given as its set of lines. -/
def Lines.has (l : Lines) : Line → Bool
  | .hlt => l.hlt
  | .mi => l.mi
  | .ri => l.ri
  | .ro => l.ro
  | .io => l.io
  | .ii => l.ii
  | .ai => l.ai
  | .ao => l.ao
  | .eo => l.eo
  | .su => l.su
  | .bi => l.bi
  | .oi => l.oi
  | .ce => l.ce
  | .co => l.co
  | .j => l.j
  | .fi => l.fi

/-- The set with one more line asserted. -/
def Lines.assert (l : Lines) : Line → Lines
  | .hlt => { l with hlt := true }
  | .mi => { l with mi := true }
  | .ri => { l with ri := true }
  | .ro => { l with ro := true }
  | .io => { l with io := true }
  | .ii => { l with ii := true }
  | .ai => { l with ai := true }
  | .ao => { l with ao := true }
  | .eo => { l with eo := true }
  | .su => { l with su := true }
  | .bi => { l with bi := true }
  | .oi => { l with oi := true }
  | .ce => { l with ce := true }
  | .co => { l with co := true }
  | .j => { l with j := true }
  | .fi => { l with fi := true }

/-- The set with one line taken out. -/
def Lines.clear (l : Lines) : Line → Lines
  | .hlt => { l with hlt := false }
  | .mi => { l with mi := false }
  | .ri => { l with ri := false }
  | .ro => { l with ro := false }
  | .io => { l with io := false }
  | .ii => { l with ii := false }
  | .ai => { l with ai := false }
  | .ao => { l with ao := false }
  | .eo => { l with eo := false }
  | .su => { l with su := false }
  | .bi => { l with bi := false }
  | .oi => { l with oi := false }
  | .ce => { l with ce := false }
  | .co => { l with co := false }
  | .j => { l with j := false }
  | .fi => { l with fi := false }

/-- One constructor for each row of `spec/opcode_table.json`. A row of format CW16 is the control words that assert
its line, "the other fifteen control lines, each free" (the table's `x`): its constructor carries those others. The row
of format INSTR8 carries the two fields of the instruction byte (R74). Which constructor the decoder gives for a word
that matches several rows is log entry 12. -/
inductive Instr where
  /-- Row HLT (R124): halt line. -/
  | hlt (others : Lines)
  /-- Row MI (R160): memory-address-write, a consumer: `M` takes the bus. -/
  | mi (others : Lines)
  /-- Row RI (R161): memory-write, a consumer: the cell at `M` takes the bus. -/
  | ri (others : Lines)
  /-- Row RO (R140): memory-read, a driver: the bus takes the cell at `M`. -/
  | ro (others : Lines)
  /-- Row IO (R141): instruction-read, a driver: the bus takes the low nibble of `I`. -/
  | io (others : Lines)
  /-- Row II (R162): instruction-write, a consumer: `I` takes the bus. -/
  | ii (others : Lines)
  /-- Row AI (R163): accumulator-write, a consumer: `A` takes the bus. -/
  | ai (others : Lines)
  /-- Row AO (R142): accumulator-read, a driver: the bus takes `A`. -/
  | ao (others : Lines)
  /-- Row EO (R143): ALU-output, a driver: the bus takes `A + B` or `A - B`. -/
  | eo (others : Lines)
  /-- Row SU (R144): subtract modifier of EO. -/
  | su (others : Lines)
  /-- Row BI (R164): B-register-write, a consumer: `B` takes the bus. -/
  | bi (others : Lines)
  /-- Row OI (R166): output-write, a consumer: the bus value is emitted. -/
  | oi (others : Lines)
  /-- Row CE (R180): counter-increment. -/
  | ce (others : Lines)
  /-- Row CO (R145): counter-read, a driver: the bus takes `C`. -/
  | co (others : Lines)
  /-- Row J (R167): jump, a consumer: `C` takes the bus. -/
  | j (others : Lines)
  /-- Row FI (R181): flags-update, reserved: no effect. -/
  | fi (others : Lines)
  /-- Row INSTR (R74, R192): the instruction byte, `I[7:4]` and `I[3:0]`. -/
  | instr (opcode imm : Nibble)
  deriving DecidableEq, Repr

/-- The instruction of a line's row, with the other lines it carries. -/
def Instr.ofLine : Line → Lines → Instr
  | .hlt, others => .hlt others
  | .mi, others => .mi others
  | .ri, others => .ri others
  | .ro, others => .ro others
  | .io, others => .io others
  | .ii, others => .ii others
  | .ai, others => .ai others
  | .ao, others => .ao others
  | .eo, others => .eo others
  | .su, others => .su others
  | .bi, others => .bi others
  | .oi, others => .oi others
  | .ce, others => .ce others
  | .co, others => .co others
  | .j, others => .j others
  | .fi, others => .fi others

/-- The lines a control-word instruction asserts: its own and the others it carries. The instruction byte is no
control word. -/
def Instr.lines? : Instr → Option Lines
  | .hlt others => some (others.assert .hlt)
  | .mi others => some (others.assert .mi)
  | .ri others => some (others.assert .ri)
  | .ro others => some (others.assert .ro)
  | .io others => some (others.assert .io)
  | .ii others => some (others.assert .ii)
  | .ai others => some (others.assert .ai)
  | .ao others => some (others.assert .ao)
  | .eo others => some (others.assert .eo)
  | .su others => some (others.assert .su)
  | .bi others => some (others.assert .bi)
  | .oi others => some (others.assert .oi)
  | .ce others => some (others.assert .ce)
  | .co others => some (others.assert .co)
  | .j others => some (others.assert .j)
  | .fi others => some (others.assert .fi)
  | .instr _ _ => none

end Sys2Proof
end

