-- ==== Sys2Proof/Config.lean ====
section
/-! DEFINITION. The fixed parameters (00_scope.md R7), the configuration of an engine (R8, R32) and the values the spec
leaves open (free constants with no body). -/

namespace Sys2Proof

/-- `MEMSIZE` (R7). -/
def memSize : Nat := 16

/-- `NSTEPS`: micro-steps of an instruction cycle (R7). -/
def nSteps : Nat := 8

/-- `TABLEMIN`: the length the interface requires of each table (R7, R242). -/
def tableMin : Nat := 1024

/-- `LINE_BIT`: the bit position of each control line in the control word, a parameter (30_encoding.md R72). -/
structure LineBit where
  hlt : Fin 16
  mi : Fin 16
  ri : Fin 16
  ro : Fin 16
  io : Fin 16
  ii : Fin 16
  ai : Fin 16
  ao : Fin 16
  eo : Fin 16
  su : Fin 16
  bi : Fin 16
  oi : Fin 16
  ce : Fin 16
  co : Fin 16
  j : Fin 16
  fi : Fin 16
  deriving DecidableEq, Repr

/-- `LINE_BIT(L)`. -/
def LineBit.pos (lb : LineBit) : Line → Fin 16
  | .hlt => lb.hlt
  | .mi => lb.mi
  | .ri => lb.ri
  | .ro => lb.ro
  | .io => lb.io
  | .ii => lb.ii
  | .ai => lb.ai
  | .ao => lb.ao
  | .eo => lb.eo
  | .su => lb.su
  | .bi => lb.bi
  | .oi => lb.oi
  | .ce => lb.ce
  | .co => lb.co
  | .j => lb.j
  | .fi => lb.fi

/-- R72 asks for "a bijection from the 16 mnemonics to the bit positions 0..15": no two lines share a bit. -/
def LineBit.wf (lb : LineBit) : Bool := decide (Line.all.map lb.pos).Nodup

/-- What an engine is constructed with and keeps for life (R8, R32, R242): the two control tables, the invert mask, the
line positions, and the terminator of an output line. -/
structure Config where
  tableLo : List Byte
  tableHi : List Byte
  invertMask : ControlWord
  lineBit : LineBit
  lineTerminator : List Byte
  deriving DecidableEq, Repr

/-- `TABLE_LO` as supplied to the engine: open (92_eei_decisions.md D18); a free value, log entry 2. -/
opaque Config.suppliedTableLo : List Byte

/-- `TABLE_HI` as supplied to the engine: open (92_eei_decisions.md D18); a free value, log entry 2. -/
opaque Config.suppliedTableHi : List Byte

/-- `INVERT_MASK`: open, no default (92_eei_decisions.md D4); a free value, log entry 3. -/
opaque Config.suppliedInvertMask : ControlWord

end Sys2Proof
end

