-- ==== Sys2Proof/WellFormed.lean ====
section
/-! DEFINITION. Well-formed instructions: the one spelling of each control word (log entry 12). -/

namespace Sys2Proof

/-- The order in which the decoder picks, among the rows that match one word, the row that names it (a DESIGN CHOICE,
log entry 12): HLT, then the consumers and the drivers in apply order (R123), then CE, SU, FI. -/
def Line.leadOrder : List Line :=
  [.hlt, .mi, .ri, .ii, .ai, .bi, .oi, .j, .ro, .io, .ao, .eo, .co, .ce, .su, .fi]

/-- The line that names a word among its asserted ones: the first in the lead order, if any is asserted. -/
def Lines.lead? (l : Lines) : Option Line := Line.leadOrder.find? l.has

/-- The others carried beside the line `L` do not hold `L` again, and with `L` they make a word that `L` names. -/
def Lines.besides (others : Lines) (L : Line) : Bool :=
  !others.has L && (others.assert L).lead? == some L

/-- Well-formed: the other lines a control-word instruction carries hold neither its own line nor one that comes
before it in the lead order. Every instruction byte is well-formed (R82). -/
def Instr.wf : Instr → Bool
  | .hlt others => others.besides .hlt
  | .mi others => others.besides .mi
  | .ri others => others.besides .ri
  | .ro others => others.besides .ro
  | .io others => others.besides .io
  | .ii others => others.besides .ii
  | .ai others => others.besides .ai
  | .ao others => others.besides .ao
  | .eo others => others.besides .eo
  | .su others => others.besides .su
  | .bi others => others.besides .bi
  | .oi others => others.besides .oi
  | .ce others => others.besides .ce
  | .co others => others.besides .co
  | .j others => others.besides .j
  | .fi others => others.besides .fi
  | .instr _ _ => true

end Sys2Proof
end

