-- ==== Sys2Proof/Decode.lean ====
section
/-! DEFINITION. The encodings (30_encoding.md, 40_control_word_fetch.md R103, R104): the default line positions, a
control word read as its set of lines and written back, the decoder (total on any bytes, rejecting by name), the encoder,
and the reading of the opcode table's numbers. -/

namespace Sys2Proof

/-- The default `LINE_BIT` of R72, most significant bit first: HLT MI RI RO IO II AI AO EO SU BI OI CE CO J FI.
PRESUMED by the spec (log entry 4). -/
def LineBit.default : LineBit where
  hlt := 15
  mi := 14
  ri := 13
  ro := 12
  io := 11
  ii := 10
  ai := 9
  ao := 8
  eo := 7
  su := 6
  bi := 5
  oi := 4
  ce := 3
  co := 2
  j := 1
  fi := 0

/-- The default terminator of an output line, one line feed (10_state.md R33; log entry 18). -/
def defaultLineTerminator : List Byte := [0x0A]

/-- The configuration the engine is created with where nothing more is known: the open values free, the rest at the
spec's defaults (00_scope.md R8). -/
def Config.supplied : Config where
  tableLo := Config.suppliedTableLo
  tableHi := Config.suppliedTableHi
  invertMask := Config.suppliedInvertMask
  lineBit := LineBit.default
  lineTerminator := defaultLineTerminator

/-- The asserted lines of an effective control word: `line(cw, L) = cw[LINE_BIT(L)]` (R73). -/
def linesOf (lb : LineBit) (cw : ControlWord) : Lines where
  hlt := cw.getLsbD lb.hlt
  mi := cw.getLsbD lb.mi
  ri := cw.getLsbD lb.ri
  ro := cw.getLsbD lb.ro
  io := cw.getLsbD lb.io
  ii := cw.getLsbD lb.ii
  ai := cw.getLsbD lb.ai
  ao := cw.getLsbD lb.ao
  eo := cw.getLsbD lb.eo
  su := cw.getLsbD lb.su
  bi := cw.getLsbD lb.bi
  oi := cw.getLsbD lb.oi
  ce := cw.getLsbD lb.ce
  co := cw.getLsbD lb.co
  j := cw.getLsbD lb.j
  fi := cw.getLsbD lb.fi

/-- The effective control word that asserts exactly the given lines: the OR of `1 << LINE_BIT(L)` over them. -/
def wordOf (lb : LineBit) (l : Lines) : ControlWord :=
  Line.all.foldl (fun cw L => if l.has L then cw ||| (1#16 <<< (lb.pos L).val) else cw) 0

/-- `Raw(low, high) = (zext_16(high) << 8) or zext_16(low)` (R103). -/
def rawWord (low high : Byte) : ControlWord :=
  (high.setWidth 16 <<< 8) ||| low.setWidth 16

/-- The low byte of a word, the one `TABLE_LO` holds (R77). -/
def lowByte (w : ControlWord) : Byte := w.extractLsb' 0 8

/-- The high byte of a word, the one `TABLE_HI` holds (R77). -/
def highByte (w : ControlWord) : Byte := w.extractLsb' 8 8

/-- `Effective(raw) = raw xor INVERT_MASK` (R104). -/
def effectiveWord (mask raw : ControlWord) : ControlWord := raw ^^^ mask

/-- Why bytes are no instruction of the table. -/
inductive DecodeError where
  /-- The effective word asserts no line: it matches no row of the table. It is still performed: it changes
  nothing but `T` (R79; log entry 13). -/
  | noLineAsserted
  /-- Neither one byte (an instruction byte) nor two (a control word): R83 knows no other length. -/
  | wrongLength
  deriving DecidableEq, Repr

/-- The instruction a set of lines is: the first asserted line in the lead order names it (log entry 12), and it carries
the others. -/
def instrOfLines (l : Lines) : Except DecodeError Instr :=
  match l.lead? with
  | some L => .ok (.ofLine L (l.clear L))
  | none => .error .noLineAsserted

/-- The decoder of an effective control word. -/
def decodeControlWord (lb : LineBit) (cw : ControlWord) : Except DecodeError Instr :=
  instrOfLines (linesOf lb cw)

/-- The decoder of an instruction byte: `opcode = I[7:4]`, `imm = I[3:0]`; all 256 bytes are legal (R74, R82). -/
def decodeInstructionByte (b : Byte) : Instr :=
  .instr (b.extractLsb' 4 4) (b.extractLsb' 0 4)

/-- The decoder on any bytes: one byte is an instruction byte, two are the low and the high byte of an effective control
word (R70, R103). -/
def decode (lb : LineBit) : List Byte → Except DecodeError Instr
  | [b] => .ok (decodeInstructionByte b)
  | [low, high] => decodeControlWord lb (rawWord low high)
  | _ => .error .wrongLength

/-- The instruction byte with the given fields (R74). -/
def instructionByte (opcode imm : Nibble) : Byte := opcode ++ imm

/-- The two bytes of the effective control word that asserts the given lines, the low byte first. -/
def controlWordBytes (lb : LineBit) (l : Lines) : List Byte :=
  [lowByte (wordOf lb l), highByte (wordOf lb l)]

/-- The encoder: an instruction byte, or the low and the high byte of the effective control word. -/
def encode (lb : LineBit) : Instr → List Byte
  | .hlt others => controlWordBytes lb (others.assert .hlt)
  | .mi others => controlWordBytes lb (others.assert .mi)
  | .ri others => controlWordBytes lb (others.assert .ri)
  | .ro others => controlWordBytes lb (others.assert .ro)
  | .io others => controlWordBytes lb (others.assert .io)
  | .ii others => controlWordBytes lb (others.assert .ii)
  | .ai others => controlWordBytes lb (others.assert .ai)
  | .ao others => controlWordBytes lb (others.assert .ao)
  | .eo others => controlWordBytes lb (others.assert .eo)
  | .su others => controlWordBytes lb (others.assert .su)
  | .bi others => controlWordBytes lb (others.assert .bi)
  | .oi others => controlWordBytes lb (others.assert .oi)
  | .ce others => controlWordBytes lb (others.assert .ce)
  | .co others => controlWordBytes lb (others.assert .co)
  | .j others => controlWordBytes lb (others.assert .j)
  | .fi others => controlWordBytes lb (others.assert .fi)
  | .instr opcode imm => [instructionByte opcode imm]

/-- The instruction the decoder reads from the bits `w`, numbered as `spec/opcode_table.json` numbers them: a 16-bit
row is an effective control word under the default line positions, an 8-bit row an instruction byte. Other lengths and
bits above the row's are refused. -/
def decodeTableWord (nbits w : Nat) : Option Instr :=
  if nbits = 8 ∧ w < 256 then
    (decode LineBit.default [BitVec.ofNat 8 w]).toOption
  else if nbits = 16 ∧ w < 65536 then
    (decode LineBit.default [lowByte (BitVec.ofNat 16 w), highByte (BitVec.ofNat 16 w)]).toOption
  else none

end Sys2Proof
end

