-- ==== Sys2Proof/Machine/State.lean ====
section
/-! DEFINITION. The state of one engine (10_state.md), the conditions that stop it (60_exceptions.md R210), the reasons
a step asked of it can have no next state, and the state after reset (R35, R240). -/

namespace Sys2Proof.Machine

/-- The four fatal conditions (60_exceptions.md R210). The index of the last is the spec's recorded information. -/
inductive Condition where
  /-- Line HLT was asserted: the normal end of a run (R124, R212). -/
  | haltAndCatchFire
  /-- A consuming line was asserted and no driving line (R126). -/
  | floatingBus
  /-- Two or more driving lines were asserted (R125). -/
  | busContention
  /-- A control table is not longer than the index of the micro-step (R213). -/
  | indexOutOfRange (idx : TableIndex)
  deriving DecidableEq, Repr

/-- `STATUS` (10_state.md R29): running, or stopped by the first condition raised. -/
inductive Status where
  | running
  | stopped (c : Condition)
  deriving DecidableEq, Repr

/-- What the host asks of the engine next (70_reset_and_hazards.md R243): the MODEL's own field, log entry 15. -/
inductive HostCall where
  /-- One micro-step (45_instruction_cycle.md R190). -/
  | microStep
  /-- One `step()`, a whole instruction cycle (R192). -/
  | instructionCycle
  deriving DecidableEq, Repr

/-- The memory `MEM` (R31): the cells that differ from what an unlisted address reads as, addresses strictly rising
(`Memory.wf`). -/
abbrev Memory := List Host.Cell

/-- The complete state of one engine (R20 to R34), with its configuration (R32; log entry 1) and the host's request
(log entry 15). -/
structure State where
  /-- `A`, the accumulator and first ALU operand (R21). -/
  a : Byte
  /-- `B`, the second ALU operand (R22). -/
  b : Byte
  /-- `I`, the instruction register (R23). -/
  i : Byte
  /-- `M`, the memory-address register (R24). -/
  m : Nibble
  /-- `C`, the program counter (R25). -/
  c : Nibble
  /-- `ZF`, the zero flag (R26). -/
  zf : Bool
  /-- `CF`, the carry flag (R26). -/
  cf : Bool
  /-- `MEM` (R31). -/
  mem : Memory
  /-- `T`, the micro-step number (R28). -/
  t : MicroNumber
  /-- `STATUS` (R29). -/
  status : Status
  /-- `OUT`, the values emitted since reset, oldest first (R33). -/
  out : List Byte
  /-- The configuration, which no step writes (R32). -/
  cfg : Config
  /-- What the host asks for next. -/
  call : HostCall
  deriving DecidableEq, Repr

/-- The engine is stopped by a fault (R215): raised when a step is asked of an engine whose `STATUS` is one of the three
faulty conditions. Safe: the engine has no transition then (R29), and the state before it holds the condition. -/
inductive Fault where
  /-- Asked of an engine stopped with `FloatingBus` (R126, 93_implementation_defined.md U7). Safe. -/
  | floatingBus
  /-- Asked of an engine stopped with `BusContention` (R125, 93_implementation_defined.md U6). Safe. -/
  | busContention
  /-- Asked of an engine stopped with `IndexOutOfRange` (R213, 93_implementation_defined.md U9). Safe. -/
  | indexOutOfRange (idx : TableIndex)
  deriving DecidableEq, Repr

/-- A step the model refuses. -/
inductive Refusal where
  /-- An instruction with no meaning yet, by its mnemonic; raised by a refused arm of `exec` only. Safe. -/
  | notModelled (mnemonic : String)
  /-- A step asked of an engine whose run has ended with `HaltAndCatchFire`, the final state (R215,
  93_implementation_defined.md U8). Safe: there is no transition. -/
  | halted
  /-- `step()` asked while `T` is not 0 (45_instruction_cycle.md R194, 93_implementation_defined.md U8). Safe: the
  host has no such move (70_reset_and_hazards.md R243). -/
  | midCycle (t : MicroNumber)
  deriving DecidableEq, Repr

/-- The outcomes of this machine. -/
abbrev Outcome := Host.Outcome State Fault Refusal

/-- Reset is the creation of an engine with its configuration (R240, R242): everything at the values of R35. -/
def State.create (cfg : Config) : State where
  a := 0
  b := 0
  i := 0
  m := 0
  c := 0
  zf := false
  cf := false
  mem := []
  t := 0
  status := .running
  out := []
  cfg := cfg
  call := .microStep

/-- The state right after reset, with the configuration free where the spec leaves it open (R35, R240; log entries 2
and 3). -/
def State.reset : State := State.create Config.supplied

end Sys2Proof.Machine
end

