-- ==== Sys2Proof/Machine/Ops.lean ====
section
/-! DEFINITION. The shared operations: one cell of memory read and written, the single-use bus with `drive` and `sense`,
the output trace, raising a condition, and what a stopped engine answers. -/

namespace Sys2Proof.Machine

/-! ### Memory (20_memory.md) -/

/-- What a cell that nothing has written reads as (10_state.md R31, R35; 20_memory.md R53). -/
def unwrittenCell : Byte := 0

/-- The canonical form of a memory: addresses strictly rising, all of them cells of `MEM`, and no listed cell that holds
what an unlisted one reads as. -/
abbrev Memory.wf (mem : Memory) : Prop :=
  (mem.map Prod.fst).Pairwise (· < ·) ∧ ∀ cell ∈ mem, cell.1 < memSize ∧ cell.2 ≠ unwrittenCell

/-- The value listed at an address. -/
def Memory.lookup : Memory → Nat → Byte
  | [], _ => unwrittenCell
  | (k, v) :: rest, addr => if k = addr then v else Memory.lookup rest addr

/-- The cell listed first, unless it holds what an unlisted cell reads as. -/
def Memory.cons (addr : Nat) (v : Byte) (rest : Memory) : Memory :=
  if v = unwrittenCell then rest else (addr, v) :: rest

/-- The memory with one cell changed, in canonical form. -/
def Memory.update : Memory → Nat → Byte → Memory
  | [], addr, v => Memory.cons addr v []
  | (k, w) :: rest, addr, v =>
    if k < addr then (k, w) :: Memory.update rest addr v
    else if k = addr then Memory.cons addr v rest
    else Memory.cons addr v ((k, w) :: rest)

/-- `MemRead(addr, 1)`: the byte in a cell; a read changes nothing (R53). Every 4-bit address is a cell (R52). -/
def memRead (mem : Memory) (addr : Nibble) : Byte := Memory.lookup mem addr.toNat

/-- `MemWrite(addr, 1, v)`: the cell takes the value, nothing else changes (R53). -/
def memWrite (mem : Memory) (addr : Nibble) (v : Byte) : Memory := Memory.update mem addr.toNat v

/-! ### The bus (41_bus_and_dispatch.md R120 to R122) -/

/-- What one micro-step works on: the bus, empty or holding the one value driven, and the state. The bus is created
empty for each `apply` and dropped at its end; it is no part of the machine's state (10_state.md R30). -/
structure Micro where
  bus : Option Byte
  st : State
  deriving DecidableEq, Repr

/-- A line's action in a micro-step: it goes on, or raises a condition. -/
abbrev MicroResult := Except Condition Micro

/-- `drive(v)` (R121): a second drive in one micro-step is BusContention. -/
def drive (v : Byte) (w : Micro) : MicroResult :=
  match w.bus with
  | none => .ok { w with bus := some v }
  | some _ => .error .busContention

/-- `sense()` (R122): an undriven bus has no value. -/
def sense (w : Micro) : Except Condition Byte :=
  match w.bus with
  | some v => .ok v
  | none => .error .floatingBus

/-- A consuming line: the state takes the value sensed; the bus keeps it (R120, R165). -/
def consume (w : Micro) (take : Byte → State → State) : MicroResult :=
  match sense w with
  | .ok v => .ok { w with st := take v w.st }
  | .error c => .error c

/-- `emit(v)`: append to the output trace (10_state.md R33). -/
def emit (v : Byte) (s : State) : State := { s with out := s.out ++ [v] }

/-! ### Conditions (60_exceptions.md R214, R217) -/

/-- `raise X`: `STATUS` takes the condition and nothing else changes; `T` is not advanced, nothing is saved and control
goes nowhere (R214). There is no return from a condition (R217), so nothing stands beside it. -/
def raise (c : Condition) (s : State) : State := { s with status := .stopped c }

/-- What a step asked of a stopped engine answers: no transition (R29). A halted engine is refused (93 U8), a faulted one
shows its fault (R215; log entry 8). -/
def stoppedOutcome : Condition → Outcome
  | .haltAndCatchFire => .refused .halted
  | .floatingBus => .fault .floatingBus
  | .busContention => .fault .busContention
  | .indexOutOfRange idx => .fault (.indexOutOfRange idx)

/-- Do something on a running engine only: the precondition `STATUS = Running` of R190 and R192. -/
def whenRunning (s : State) (act : Outcome) : Outcome :=
  match s.status with
  | .running => act
  | .stopped c => stoppedOutcome c

end Sys2Proof.Machine
end

