-- ==== Sys2Proof/Machine/Flags.lean ====
section
/-! DEFINITION. The flags `ZF` and `CF` (10_state.md R26): read by the indexer, written by nothing. -/

namespace Sys2Proof.Machine

/-- What line FI does to the state: nothing (44_counter_and_flags_lines.md R181). The spec forbids a guessed flag rule
(30_encoding.md R80); log entry 21. -/
def flagsUpdate (s : State) : State := s

/-- A flag as the bit the indexer puts in the index (40_control_word_fetch.md R100). -/
def flagBit (f : Bool) : TableIndex := (BitVec.ofBool f).setWidth 10

end Sys2Proof.Machine
end

