-- ==== Sys2Proof/Machine/Operands.lean ====
section
/-! DEFINITION. The operand forms: the two fields of `I`, zero extension to the bus, the low nibble a 4-bit register
keeps, and the two functions of the ALU (30_encoding.md R74, R75; 42_bus_drive_lines.md R143). -/

namespace Sys2Proof.Machine

/-- `I[7:4]`, the opcode (10_state.md R23). -/
def opcodeOf (i : Byte) : Nibble := i.extractLsb' 4 4

/-- `I[3:0]`, the immediate (10_state.md R23, R75). -/
def immediateOf (i : Byte) : Nibble := i.extractLsb' 0 4

/-- `zext_8` of a 4-bit value: what IO and CO put on the bus (R75, R141, R145). -/
def zeroExtend8 (v : Nibble) : Byte := v.setWidth 8

/-- `v[3:0]`: what MI and J keep of the bus value (43_bus_consume_lines.md R160, R167). -/
def lowNibble (v : Byte) : Nibble := v.extractLsb' 0 4

/-- The ALU (R143): `(A - B) mod 256` with the subtract modifier, else `(A + B) mod 256`. -/
def aluResult (subtract : Bool) (a b : Byte) : Byte := if subtract then a - b else a + b

end Sys2Proof.Machine
end

