-- ==== Sys2Proof/Machine/Fetch.lean ====
section
/-! DEFINITION. The control-word indexer and the control-word fetch (40_control_word_fetch.md). -/

namespace Sys2Proof.Machine

/-- `Index(ZF, CF, I, T)` (R100): the two flags at bits 9 and 8, a constant 0 at bit 7, the opcode at bits 6 to 3, the
micro-step number at bits 2 to 0 (the spec's decision D5, log entry 5). -/
def tableIndex (zf cf : Bool) (i : Byte) (t : MicroNumber) : TableIndex :=
  (flagBit zf <<< 9) ||| (flagBit cf <<< 8) ||| ((opcodeOf i).setWidth 10 <<< 3) ||| t.setWidth 10

/-- The index of the micro-step the state is at, from its flags and `I` as they are now (R101). -/
def State.index (s : State) : TableIndex := tableIndex s.zf s.cf s.i s.t

/-- `TableRead(idx)` (R102): the low and the high byte at the same index, or IndexOutOfRange when a table is too
short (log entry 6). -/
def tableRead (cfg : Config) (idx : TableIndex) : Except Condition (Byte × Byte) :=
  match cfg.tableLo[idx.toNat]?, cfg.tableHi[idx.toNat]? with
  | some low, some high => .ok (low, high)
  | _, _ => .error (.indexOutOfRange idx)

/-- `FetchCW(state)` (R105): the effective control word of this micro-step. -/
def fetchWord (s : State) : Except Condition ControlWord :=
  match tableRead s.cfg s.index with
  | .ok (low, high) => .ok (effectiveWord s.cfg.invertMask (rawWord low high))
  | .error c => .error c

end Sys2Proof.Machine
end

