-- ==== Sys2Proof/Machine/Boot.lean ====
section
/-! DEFINITION. The host's moves before a run (70_reset_and_hazards.md R241 to R243): construct, pre-load, and the
loading of a single word that stands for the supply of control tables. -/

namespace Sys2Proof.Machine

/-- The pre-load writes the given bytes from address 0 on, and memory only (R241). -/
def preload : List Byte → Nat → Memory → Memory
  | [], _, mem => mem
  | v :: rest, addr, mem => preload rest (addr + 1) (Memory.update mem addr v)

/-- Construct and pre-load, before the first micro-step: the start of a run (R241, R242, R244). More than 16 bytes are
not admitted (91_not_in_source.md N28; log entry 19). -/
def boot (cfg : Config) (memInit : List Byte) : Option State :=
  if memInit.length ≤ memSize then
    some { State.create cfg with mem := preload memInit 0 [] }
  else none

/-- A table image of the length the interface requires that holds one byte at one index and 0 elsewhere. -/
def tableImage (idx : Nat) (b : Byte) : List Byte :=
  List.replicate idx 0 ++ b :: List.replicate (tableMin - 1 - idx) 0

/-- A running engine supplied with tables that hold, at the index of its next micro-step, the word asserting the given
lines, stored uninverted, and asked for that micro-step (log entry 16). -/
def loadControlWord (l : Lines) (s : State) : State :=
  let cw := wordOf s.cfg.lineBit l
  { s with
    cfg := { s.cfg with
      tableLo := tableImage s.index.toNat (lowByte cw)
      tableHi := tableImage s.index.toNat (highByte cw)
      invertMask := 0 }
    status := .running
    call := .microStep }

/-- A running engine at a cycle boundary that holds the given instruction byte, supplied with tables whose every word
asserts no line, and asked for a whole cycle (log entry 16). -/
def loadInstructionByte (b : Byte) (s : State) : State :=
  { s with
    i := b
    t := 0
    cfg := { s.cfg with
      tableLo := List.replicate tableMin 0
      tableHi := List.replicate tableMin 0
      invertMask := 0 }
    status := .running
    call := .instructionCycle }

end Sys2Proof.Machine
end

