-- ==== Sys2Proof/Machine/Consumers.lean ====
section
/-! DEFINITION. Item 3 of the apply order: the bus-consuming lines MI, RI, II, AI, BI, OI and J
(43_bus_consume_lines.md). Each senses the bus once and writes one piece of state. -/

namespace Sys2Proof.Machine

/-- MI: `M <- bus[3:0]` (R160). -/
def lineMi (l : Lines) (w : Micro) : MicroResult :=
  if l.mi then consume w fun v s => { s with m := lowNibble v } else .ok w

/-- RI: `MEM[M] <- bus`, at `M` as it stands when RI is evaluated (R161; the order is the spec's decision D9, log
entry 9). -/
def lineRi (l : Lines) (w : Micro) : MicroResult :=
  if l.ri then consume w fun v s => { s with mem := memWrite s.mem s.m v } else .ok w

/-- II: `I <- bus`, all eight bits (R162). -/
def lineIi (l : Lines) (w : Micro) : MicroResult :=
  if l.ii then consume w fun v s => { s with i := v } else .ok w

/-- AI: `A <- bus` (R163). -/
def lineAi (l : Lines) (w : Micro) : MicroResult :=
  if l.ai then consume w fun v s => { s with a := v } else .ok w

/-- BI: `B <- bus` (R164). -/
def lineBi (l : Lines) (w : Micro) : MicroResult :=
  if l.bi then consume w fun v s => { s with b := v } else .ok w

/-- OI: emit the bus value (R166). -/
def lineOi (l : Lines) (w : Micro) : MicroResult :=
  if l.oi then consume w emit else .ok w

/-- J: `C <- bus[3:0]` (R167; the reduction is the spec's decision D6, log entry 10). -/
def lineJ (l : Lines) (w : Micro) : MicroResult :=
  if l.j then consume w fun v s => { s with c := lowNibble v } else .ok w

end Sys2Proof.Machine
end

