-- ==== Sys2Proof/Machine/Counter.lean ====
section
/-! DEFINITION. Items 4 and 5 of the apply order: the counter-increment line CE and the reserved flags line FI
(44_counter_and_flags_lines.md). Neither touches the bus. -/

namespace Sys2Proof.Machine

/-- CE: `C <- (C + 1) mod 16`, whatever the bus holds (R180). -/
def lineCe (l : Lines) (w : Micro) : MicroResult :=
  if l.ce then .ok { w with st := { w.st with c := w.st.c + 1 } } else .ok w

/-- FI: nothing (R181). -/
def lineFi (l : Lines) (w : Micro) : MicroResult :=
  if l.fi then .ok { w with st := flagsUpdate w.st } else .ok w

end Sys2Proof.Machine
end

