-- ==== Sys2Proof/Machine/Drivers.lean ====
section
/-! DEFINITION. Item 2 of the apply order: the bus-driving lines RO, IO, AO, EO (with SU) and CO
(42_bus_drive_lines.md). A driver reads state and calls `drive`; it writes nothing. -/

namespace Sys2Proof.Machine

/-- RO: the bus takes `MEM[M]` (R140). -/
def lineRo (l : Lines) (w : Micro) : MicroResult :=
  if l.ro then drive (memRead w.st.mem w.st.m) w else .ok w

/-- IO: the bus takes `I[3:0]`, zero-extended (R141). -/
def lineIo (l : Lines) (w : Micro) : MicroResult :=
  if l.io then drive (zeroExtend8 (immediateOf w.st.i)) w else .ok w

/-- AO: the bus takes `A` (R142). -/
def lineAo (l : Lines) (w : Micro) : MicroResult :=
  if l.ao then drive w.st.a w else .ok w

/-- EO: the bus takes the ALU's result; SU of the same word selects subtraction and does nothing else (R143, R144). -/
def lineEo (l : Lines) (w : Micro) : MicroResult :=
  if l.eo then drive (aluResult l.su w.st.a w.st.b) w else .ok w

/-- CO: the bus takes `C`, zero-extended (R145). -/
def lineCo (l : Lines) (w : Micro) : MicroResult :=
  if l.co then drive (zeroExtend8 w.st.c) w else .ok w

end Sys2Proof.Machine
end

