-- ==== Sys2Proof/Machine/Halt.lean ====
section
/-! DEFINITION. Item 1 of the apply order: the halt line (41_bus_and_dispatch.md R124). -/

namespace Sys2Proof.Machine

/-- HLT: raise HaltAndCatchFire before anything else (R124). -/
def lineHlt (l : Lines) (w : Micro) : MicroResult :=
  if l.hlt then .error .haltAndCatchFire else .ok w

end Sys2Proof.Machine
end

