-- ==== Sys2Proof/Machine/Apply.lean ====
section
/-! DEFINITION. The dispatcher `apply` (41_bus_and_dispatch.md R123) and the half of a micro-step that performs a
control word (45_instruction_cycle.md R190). -/

namespace Sys2Proof.Machine

/-- Item 2 of the apply order: the five drivers, in the fixed priority of R123. -/
def driveLines (l : Lines) (w : Micro) : MicroResult := do
  let w ← lineRo l w
  let w ← lineIo l w
  let w ← lineAo l w
  let w ← lineEo l w
  lineCo l w

/-- Item 3 of the apply order: the seven consumers, in list order, each seeing the writes of those before it (R123; the
spec's decision D9, log entry 9). -/
def consumeLines (l : Lines) (w : Micro) : MicroResult := do
  let w ← lineMi l w
  let w ← lineRi l w
  let w ← lineIi l w
  let w ← lineAi l w
  let w ← lineBi l w
  let w ← lineOi l w
  lineJ l w

/-- `apply(cw)` (R123): the bus starts empty, the items run in the order written, a raise ends it there, and the bus is
discarded at the end. -/
def applyWord (l : Lines) (s : State) : Except Condition State := do
  let w ← lineHlt l { bus := none, st := s }
  let w ← driveLines l w
  let w ← consumeLines l w
  let w ← lineCe l w
  let w ← lineFi l w
  return w.st

/-- `T <- (T + 1) mod 8` (R190, R191). -/
def advance (s : State) : State := { s with t := s.t + 1 }

/-- What a micro-step makes of the word it fetched (R190): the word is performed and `T` advances, or the condition is
raised and nothing else changes. -/
def performed (l : Lines) (s : State) : State :=
  match applyWord l s with
  | .ok s' => advance s'
  | .error c => raise c s

/-- A control word performed by a running engine as one micro-step. -/
def performWord (l : Lines) (s : State) : Outcome :=
  whenRunning s (.next (performed l s))

end Sys2Proof.Machine
end

