-- ==== Sys2Proof/Machine/ControlWords.lean ====
section
/-! DEFINITION. The meaning of each control-word row of the opcode table: the micro-step that performs the word
asserting the row's line and the others it carries (41_bus_and_dispatch.md R123; 45_instruction_cycle.md R190). What the
line itself does stands in Halt, Drivers, Consumers and Counter. -/

namespace Sys2Proof.Machine

/-- A word that asserts HLT (R124). -/
def execHlt (others : Lines) (s : State) : Outcome :=
  performWord (others.assert .hlt) s

/-- A word that asserts MI (R160). -/
def execMi (others : Lines) (s : State) : Outcome :=
  performWord (others.assert .mi) s

/-- A word that asserts RI (R161). -/
def execRi (others : Lines) (s : State) : Outcome :=
  performWord (others.assert .ri) s

/-- A word that asserts RO (R140). -/
def execRo (others : Lines) (s : State) : Outcome :=
  performWord (others.assert .ro) s

/-- A word that asserts IO (R141). -/
def execIo (others : Lines) (s : State) : Outcome :=
  performWord (others.assert .io) s

/-- A word that asserts II (R162). -/
def execIi (others : Lines) (s : State) : Outcome :=
  performWord (others.assert .ii) s

/-- A word that asserts AI (R163). -/
def execAi (others : Lines) (s : State) : Outcome :=
  performWord (others.assert .ai) s

/-- A word that asserts AO (R142). -/
def execAo (others : Lines) (s : State) : Outcome :=
  performWord (others.assert .ao) s

/-- A word that asserts EO (R143). -/
def execEo (others : Lines) (s : State) : Outcome :=
  performWord (others.assert .eo) s

/-- A word that asserts SU (R144). -/
def execSu (others : Lines) (s : State) : Outcome :=
  performWord (others.assert .su) s

/-- A word that asserts BI (R164). -/
def execBi (others : Lines) (s : State) : Outcome :=
  performWord (others.assert .bi) s

/-- A word that asserts OI (R166). -/
def execOi (others : Lines) (s : State) : Outcome :=
  performWord (others.assert .oi) s

/-- A word that asserts CE (R180). -/
def execCe (others : Lines) (s : State) : Outcome :=
  performWord (others.assert .ce) s

/-- A word that asserts CO (R145). -/
def execCo (others : Lines) (s : State) : Outcome :=
  performWord (others.assert .co) s

/-- A word that asserts J (R167). -/
def execJ (others : Lines) (s : State) : Outcome :=
  performWord (others.assert .j) s

/-- A word that asserts FI (R181). -/
def execFi (others : Lines) (s : State) : Outcome :=
  performWord (others.assert .fi) s

end Sys2Proof.Machine
end

