-- ==== Sys2Proof/Machine/Cycle.lean ====
section
/-! DEFINITION. The micro-step, the instruction cycle `step()` of eight micro-steps, the meaning of the INSTR row, and
what one step of the machine runs (45_instruction_cycle.md). -/

namespace Sys2Proof.Machine

/-- `MicroStep(state)` of a running engine (R190): fetch the control word, apply it, advance `T`; if the fetch or `apply`
raises, `STATUS` takes the condition and nothing else changes. -/
def microStep (s : State) : State :=
  match fetchWord s with
  | .ok cw => performed (linesOf s.cfg.lineBit cw) s
  | .error c => raise c s

/-- Up to `n` micro-steps, none after the engine has stopped (R192, R193). -/
def microSteps : Nat → State → State
  | 0, s => s
  | n + 1, s => if s.status = .running then microSteps n (microStep s) else s

/-- INSTR: `step()`, the instruction cycle (R192), with the instruction byte `opcode:imm` in `I`. It is defined at a cycle
boundary of a running engine only (R194). If micro-step `t` raises, the effects of the earlier ones stay and the engine
stops at `T = t` (R193). That the row's byte is the one `I` holds when the cycle begins is log entry 14. -/
def execInstr (opcode imm : Nibble) (s : State) : Outcome :=
  whenRunning s
    (if s.t = 0 then .next (microSteps nSteps { s with i := instructionByte opcode imm })
     else .refused (.midCycle s.t))

/-- The micro-step of the machine, run through a given meaning of instructions: the fetched word is decoded and the
instruction it is, is run; the word that asserts no line is no instruction of the table and is performed as it is (R79,
log entry 13). -/
def runFetched (run : Instr → State → Outcome) (s : State) : Outcome :=
  match fetchWord s with
  | .error c => .next (raise c s)
  | .ok cw =>
    match decodeControlWord s.cfg.lineBit cw with
    | .ok i => run i s
    | .error _ => performWord (linesOf s.cfg.lineBit cw) s

/-- What the engine runs next, as the host asked (log entry 15): one micro-step, or the whole cycle of the byte in `I`. A
stopped engine runs nothing (R190). -/
def runNext (run : Instr → State → Outcome) (s : State) : Outcome :=
  whenRunning s
    (match s.call with
     | .microStep => runFetched run s
     | .instructionCycle => run (decodeInstructionByte s.i) s)

end Sys2Proof.Machine
end

