-- ==== Sys2Proof/Machine/Dispatch.lean ====
section
/-! DEFINITION. The dispatch: one arm for each constructor of `Instr`, each one direct call of its meaning. -/

namespace Sys2Proof.Machine

def exec (i : Instr) (s : State) : Host.Outcome State Fault Refusal :=
  match i with
  | .hlt others => Sys2Proof.Machine.execHlt others s
  | .mi others => Sys2Proof.Machine.execMi others s
  | .ri others => Sys2Proof.Machine.execRi others s
  | .ro others => Sys2Proof.Machine.execRo others s
  | .io others => Sys2Proof.Machine.execIo others s
  | .ii others => Sys2Proof.Machine.execIi others s
  | .ai others => Sys2Proof.Machine.execAi others s
  | .ao others => Sys2Proof.Machine.execAo others s
  | .eo others => Sys2Proof.Machine.execEo others s
  | .su others => Sys2Proof.Machine.execSu others s
  | .bi others => Sys2Proof.Machine.execBi others s
  | .oi others => Sys2Proof.Machine.execOi others s
  | .ce others => Sys2Proof.Machine.execCe others s
  | .co others => Sys2Proof.Machine.execCo others s
  | .j others => Sys2Proof.Machine.execJ others s
  | .fi others => Sys2Proof.Machine.execFi others s
  | .instr opcode imm => Sys2Proof.Machine.execInstr opcode imm s

end Sys2Proof.Machine
end

