-- ==== Sys2Proof/Machine/Step.lean ====
section
/-! DEFINITION. One step of the machine, and the state in which the very next step runs a given word. -/

namespace Sys2Proof.Machine

/-- One step: the micro-step or the instruction cycle the host asks for (45_instruction_cycle.md R190, R192). -/
def step (s : State) : Host.Outcome State Fault Refusal := runNext exec s

/-- The state with the table's word placed where the next step takes its instruction from (log entry 16): an 8-bit word
in `I` at a cycle boundary, with the cycle asked for; any other as the control word at this micro-step's index, with the
micro-step asked for. -/
def State.withFetchWord (s : State) (nbits w : Nat) : State :=
  if nbits = 8 then loadInstructionByte (BitVec.ofNat 8 w) s
  else loadControlWord (linesOf LineBit.default (BitVec.ofNat 16 w)) s

end Sys2Proof.Machine
end

