-- ==== Sys2Proof/Machine/Output.lean ====
section
/-! DEFINITION. What the outside sees: the text of the output sink (10_state.md R33, 43_bus_consume_lines.md R166), the
numbers of `STATUS` (60_exceptions.md R210), and the logical ports (70_reset_and_hazards.md R253). -/

namespace Sys2Proof.Machine

/-- The ASCII byte of a decimal digit. -/
def digitByte (d : Nat) : Byte := BitVec.ofNat 8 (0x30 + d)

/-- An 8-bit value in unsigned decimal, no padding and no leading zeros (R33). -/
def decimalText (v : Byte) : List Byte :=
  let n := v.toNat
  if n < 10 then [digitByte n]
  else if n < 100 then [digitByte (n / 10), digitByte (n % 10)]
  else [digitByte (n / 100), digitByte (n / 10 % 10), digitByte (n % 10)]

/-- One output line: `out `, the value, the terminator (R33). -/
def outputLine (terminator : List Byte) (v : Byte) : List Byte :=
  [0x6F, 0x75, 0x74, 0x20] ++ decimalText v ++ terminator

/-- The text the sink shows, a function of `OUT` and the terminator (R33; log entry 18). -/
def sinkText (s : State) : List Byte := s.out.flatMap (outputLine s.cfg.lineTerminator)

/-- The number of a status on a status port (R210; the spec's own numbers, its decision D8). -/
def statusNumber : Status → BitVec 3
  | .running => 0
  | .stopped .haltAndCatchFire => 1
  | .stopped .floatingBus => 2
  | .stopped .busContention => 3
  | .stopped (.indexOutOfRange _) => 4

/-- The logical ports of R253 that the engine drives, and the table bytes it reads back. A pair of bytes is absent where
the index is out of a table's range. -/
structure Ports where
  romIndex : TableIndex
  rom : Option (Byte × Byte)
  outValue : Option Byte
  status : BitVec 3
  deriving DecidableEq, Repr

/-- The value the micro-step the state is at emits, if it performs OI (R253 `out_value` and `out_strobe`). -/
def emittedNext (s : State) : Option Byte :=
  if s.status = .running then (microStep s).out[s.out.length]? else none

/-- The ports as they stand during the micro-step the state is at (R253). -/
def ports (s : State) : Ports where
  romIndex := s.index
  rom := (tableRead s.cfg s.index).toOption
  outValue := emittedNext s
  status := statusNumber s.status

end Sys2Proof.Machine
end

