-- ==== Sys2Proof/Safety.lean ====
section
/-! DEFINITION. The terms claims are stated in: the classes of control words (30_encoding.md R78), the one bus value and
the next state the rules give a well-formed word, written in plain arithmetic, the classing of stopped engines
(60_exceptions.md R215), the machine's invariant (10_state.md R36), and the fetch convention of a table
(45_instruction_cycle.md R195). -/

namespace Sys2Proof

/-- The asserted bus-driving lines, in priority order (42_bus_drive_lines.md R146). -/
def Lines.drivers (l : Lines) : List Line := [.ro, .io, .ao, .eo, .co].filter l.has

/-- The asserted bus-consuming lines, in list order (43_bus_consume_lines.md R165). -/
def Lines.consumers (l : Lines) : List Line := [.mi, .ri, .ii, .ai, .bi, .oi, .j].filter l.has

/-- The four classes of effective control words (R78). -/
inductive WordClass where
  | halt
  | contention
  | floating
  | wellFormed
  deriving DecidableEq, Repr

/-- The class of a control word, by the conditions of R78. -/
def Lines.wordClass (l : Lines) : WordClass :=
  if l.hlt then .halt
  else if 2 ≤ l.drivers.length then .contention
  else if l.drivers = [] ∧ l.consumers ≠ [] then .floating
  else .wellFormed

namespace Machine

/-- The value each driving line puts on the bus (R140 to R145), in arithmetic on numbers; nothing else drives (R146). -/
def drivenBy (l : Lines) (s : State) : Line → Option Byte
  | .ro => some (memRead s.mem s.m)
  | .io => some (BitVec.ofNat 8 (s.i.toNat % 16))
  | .ao => some s.a
  | .eo => some (if l.su then BitVec.ofInt 8 ((s.a.toNat : Int) - s.b.toNat) else BitVec.ofNat 8 (s.a.toNat + s.b.toNat))
  | .co => some (BitVec.ofNat 8 s.c.toNat)
  | _ => none

/-- The bus of a word with at most one driver: that driver's value, or no value. -/
def busOf (l : Lines) (s : State) : Option Byte := l.drivers.head?.bind (drivenBy l s)

/-- The address a word stores to: `M` as it stands when RI is evaluated, which is the low nibble of the bus value when MI
stands in the same word (43_bus_consume_lines.md R161). -/
def storeAddress (l : Lines) (v : Byte) (s : State) : Nibble := if l.mi then BitVec.ofNat 4 v.toNat else s.m

/-- The next state the rules give a well-formed word whose bus value is `bus`: each consumer's register takes it (R160 to
R167), CE counts after J (R180), FI and SU do nothing (R181, R144), `T` advances (R190), and all else stays. -/
def settled (l : Lines) (bus : Option Byte) (s : State) : State :=
  let s' := match bus with
    | none => s
    | some v =>
      { s with
        m := if l.mi then BitVec.ofNat 4 v.toNat else s.m
        mem := if l.ri then memWrite s.mem (storeAddress l v s) v else s.mem
        i := if l.ii then v else s.i
        a := if l.ai then v else s.a
        b := if l.bi then v else s.b
        out := if l.oi then s.out ++ [v] else s.out
        c := if l.j then BitVec.ofNat 4 v.toNat else s.c }
  { s' with
    c := if l.ce then BitVec.ofNat 4 (s'.c.toNat + 1) else s'.c
    t := BitVec.ofNat 3 (s.t.toNat + 1) }

/-- The end of a run (R215): a halted engine. -/
def State.final (s : State) : Prop := s.status = .stopped .haltAndCatchFire

/-- A faulted engine (R215): stopped, and not by the halt line. -/
def State.faulted (s : State) : Prop := ∃ c, c ≠ .haltAndCatchFire ∧ s.status = .stopped c

/-- A safe state: the engine runs or has halted. A run is safe when every state of it is. -/
def State.safe (s : State) : Prop := s.status = .running ∨ s.final

/-- No transition: the step asked of the state has no next state. -/
def State.quiescent (s : State) : Prop := ∀ s', step s ≠ .next s'

/-- The invariant of every reachable state (R36): memory in canonical form and both flags clear. That `M`, `C` and `T`
keep their ranges is in their types. -/
def State.Inv (s : State) : Prop := Memory.wf s.mem ∧ s.zf = false ∧ s.cf = false

/-- The lines of the effective word a configuration holds at an index, where both tables are long enough. -/
def linesAt (cfg : Config) (idx : TableIndex) : Option Lines :=
  (tableRead cfg idx).toOption.map fun bytes =>
    linesOf cfg.lineBit (effectiveWord cfg.invertMask (rawWord bytes.1 bytes.2))

/-- A table follows the fetch convention when micro-steps 0 and 1 of every opcode, with these flags, hold the pair
`CO|MI` and `RO|II|CE` (R195). -/
def fetchConvention (cfg : Config) (zf cf : Bool) : Prop :=
  ∀ i : Byte, linesAt cfg (tableIndex zf cf i 0) = some { co := true, mi := true } ∧
    linesAt cfg (tableIndex zf cf i 1) = some { ro := true, ii := true, ce := true }

/-- Up to `n` steps of the machine, as long as the engine runs: the state the host then observes. -/
def stepsWhileRunning : Nat → State → State
  | 0, s => s
  | n + 1, s =>
    match s.status, step s with
    | .running, .next s' => stepsWhileRunning n s'
    | _, _ => s

/-- The state after up to `n` micro-steps of the machine from a state, whatever the host asks for there: it is stepped by
micro-steps, and the request is put back. -/
def afterMicroSteps (n : Nat) (s : State) : State :=
  { stepsWhileRunning n { s with call := .microStep } with call := s.call }

end Machine
end Sys2Proof
end

