-- ==== Sys2Proof/Certificates/Slice0/Obligations.lean ====
section
/-! DEFINITION. The statements for the provers. Each docstring names the rule of spec/ it formalises, or says that it rests
on a choice of the model's or a decision of the spec's and names the log entry. In every statement about a control word,
`i.lines? = some l` says that `i` is a control-word instruction (any of the sixteen rows) that asserts exactly the
lines `l`. -/

open Sys2Proof Sys2Proof.Machine

/-! ### Reset, boot and memory -/

/-- 10_state.md section 7 (R35) and 70_reset_and_hazards.md section 1 (R240): creation leaves every register, the flags
and every cell 0. `ZF`, `CF`, `T`, `STATUS` and `OUT` start as the spec decides (log entries 7, 8, 17, 18). -/
def Obligations.ResetStateIsZeroed : Prop :=
  (∀ cfg : Config,
    (State.create cfg).a = 0 ∧ (State.create cfg).b = 0 ∧ (State.create cfg).i = 0 ∧ (State.create cfg).m = 0 ∧
    (State.create cfg).c = 0 ∧ (State.create cfg).zf = false ∧ (State.create cfg).cf = false ∧
    (∀ addr : Nibble, memRead (State.create cfg).mem addr = 0) ∧
    (State.create cfg).t = 0 ∧ (State.create cfg).status = .running ∧ (State.create cfg).out = [] ∧
    (State.create cfg).cfg = cfg) ∧
  State.reset = State.create Config.supplied

/-- 70_reset_and_hazards.md section 1 (R241): the pre-load sets the cells from address 0 on, leaves the rest 0, and
writes memory only. That more than 16 bytes are not admitted is the spec's decision D17 (log entry 19). -/
def Obligations.BootPreloadsMemoryOnly : Prop :=
  ∀ (cfg : Config) (bytes : List Byte),
    (bytes.length ≤ 16 → ∃ s, boot cfg bytes = some s ∧
      (∀ addr : Nibble, memRead s.mem addr = bytes.getD addr.toNat 0) ∧
      s = { State.create cfg with mem := s.mem }) ∧
    (16 < bytes.length → boot cfg bytes = none)

/-- 20_memory.md section 4 (R53): a cell returns the last value written to it, and a write changes no other cell. The
premise is the canonical form of memory, part of the invariant that every step keeps. -/
def Obligations.MemoryReturnsLastWrite : Prop :=
  ∀ (mem : Memory) (addr other : Nibble) (v : Byte), Memory.wf mem →
    memRead (memWrite mem addr v) addr = v ∧
    (other ≠ addr → memRead (memWrite mem addr v) other = memRead mem other)

/-- The canonical form of memory (the model's own, log entry 20): memories with the same sixteen cells are equal. -/
def Obligations.CanonicalMemoriesWithEqualCellsAreEqual : Prop :=
  ∀ mem mem' : Memory, Memory.wf mem → Memory.wf mem' →
    (∀ addr : Nibble, memRead mem addr = memRead mem' addr) → mem = mem'

/-! ### Encodings -/

/-- 30_encoding.md sections 2, 3 and 9 (R72, R74, R86): words written from the table decode to their rows. Which row
names a word that matches several is the model's choice (log entry 12). -/
def Obligations.TableWordsDecodeToTheirRows : Prop :=
  decodeTableWord 16 0x8000 = some (.hlt {}) ∧ decodeTableWord 16 0x4000 = some (.mi {}) ∧
  decodeTableWord 16 0x1000 = some (.ro {}) ∧ decodeTableWord 16 0x0040 = some (.su {}) ∧
  decodeTableWord 16 0x0008 = some (.ce {}) ∧ decodeTableWord 16 0x0001 = some (.fi {}) ∧
  decodeTableWord 16 0x4004 = some (.mi { co := true }) ∧
  decodeTableWord 16 0x1408 = some (.ii { ro := true, ce := true }) ∧
  decodeTableWord 16 0x02C1 = some (.ai { eo := true, su := true, fi := true }) ∧
  decodeTableWord 16 0x0802 = some (.j { io := true }) ∧
  decodeTableWord 16 0x0000 = none ∧
  decodeTableWord 8 0x53 = some (.instr 5 3)

/-- Decoding what a well-formed instruction is encoded as gives it back, for every assignment of lines to bits
(30_encoding.md R72, R73, R74, R103). Which row names a word is log entry 12, and that the line positions are a
bijection log entry 24. -/
def Obligations.DecodeOfEncodeIsTheInstruction : Prop :=
  ∀ (lb : LineBit) (i : Instr), lb.wf = true → i.wf = true → decode lb (encode lb i) = .ok i

/-- What decodes is a well-formed instruction, and encoding it gives the bytes back: each encoding has one reading, and
no bit of it is dropped (30_encoding.md R72, R73, R74, R103). Which row names a word is log entry 12, and that the line
positions are a bijection log entry 24. -/
def Obligations.EncodeOfDecodeIsTheBytes : Prop :=
  ∀ (lb : LineBit) (bytes : List Byte) (i : Instr), lb.wf = true → decode lb bytes = .ok i →
    i.wf = true ∧ encode lb i = bytes

/-- 30_encoding.md R79, R82, R83, R86: the only bytes of a legal length that are no instruction of the table are the
word with no line asserted; every other length is refused. R78 makes every word decodable: that the decoder rejects this
one by name, since it matches no row of R86, and the step performs it, is log entry 13. -/
def Obligations.OnlyTheEmptyWordIsNoInstruction : Prop :=
  ∀ (lb : LineBit) (bytes : List Byte), lb.wf = true →
    (decode lb bytes = .error .noLineAsserted ↔ bytes = [0, 0]) ∧
    (decode lb bytes = .error .wrongLength ↔ bytes.length ≠ 1 ∧ bytes.length ≠ 2)

/-- R103, whole: the high byte times 256 plus the low byte. -/
def Obligations.RawWordCombinesTwoBytes : Prop :=
  (∀ low high : Byte, (rawWord low high).toNat = high.toNat * 256 + low.toNat ∧
    rawWord low high = (high.setWidth 16 <<< 8) ||| low.setWidth 16) ∧
  rawWord 0x00 0x0A = 0x0A00 ∧ rawWord 0x34 0x12 = 0x1234

/-- 40_control_word_fetch.md R104: for every wanted effective word there is exactly one raw word, that word exclusive-OR
the mask. The mask's value is open (log entry 3): the statement holds for every mask. -/
def Obligations.InversionIsABijection : Prop :=
  ∀ mask wanted raw : ControlWord, effectiveWord mask raw = wanted ↔ raw = wanted ^^^ mask

/-! ### The index and the fetch -/

/-- 40_control_word_fetch.md R100, with the spec's layout D5 (log entry 5): the fields of the index, its constant zero
bit, and its bound. -/
def Obligations.IndexHasItsFields : Prop :=
  ∀ (zf cf : Bool) (i : Byte) (t : MicroNumber),
    (tableIndex zf cf i t).toNat = 512 * zf.toNat + 256 * cf.toNat + 8 * (i.toNat / 16) + t.toNat ∧
    (tableIndex zf cf i t).getLsbD 7 = false ∧ (tableIndex zf cf i t).toNat ≤ 895

/-- 40_control_word_fetch.md R100: the index is injective on the flags, the opcode and the micro-step number and depends
on nothing else; the layout is the spec's decision D5 (log entry 5). -/
def Obligations.IndexIsInjective : Prop :=
  ∀ (zf cf zf' cf' : Bool) (i i' : Byte) (t t' : MicroNumber),
    tableIndex zf cf i t = tableIndex zf' cf' i' t' ↔
      zf = zf' ∧ cf = cf' ∧ i.toNat / 16 = i'.toNat / 16 ∧ t = t'

/-- 40_control_word_fetch.md R102: both tables are read at the same index, and one that is too short raises
IndexOutOfRange with it. That short tables are admitted is log entry 6. -/
def Obligations.TableReadIsBoundsChecked : Prop :=
  ∀ (cfg : Config) (idx : TableIndex),
    (∀ (hlo : idx.toNat < cfg.tableLo.length) (hhi : idx.toNat < cfg.tableHi.length),
      tableRead cfg idx = .ok (cfg.tableLo[idx.toNat], cfg.tableHi[idx.toNat])) ∧
    (cfg.tableLo.length ≤ idx.toNat ∨ cfg.tableHi.length ≤ idx.toNat →
      tableRead cfg idx = .error (.indexOutOfRange idx))

/-- 40_control_word_fetch.md R105: the fetched word is a function of the configuration, the flags, the opcode and the
micro-step number alone. -/
def Obligations.FetchReadsFlagsOpcodeAndStepOnly : Prop :=
  ∀ s s' : State, s.cfg = s'.cfg → s.zf = s'.zf → s.cf = s'.cf → s.i.toNat / 16 = s'.i.toNat / 16 → s.t = s'.t →
    fetchWord s = fetchWord s'

/-- 60_exceptions.md R213: with tables of at least 896 entries IndexOutOfRange cannot occur, in any state and by any
step; with clear flags 128 entries are enough. Both bounds rest on the index layout, the spec's decision D5 (log entry
5). -/
def Obligations.LongTablesNeverRunOut : Prop :=
  ∀ (s s' : State) (idx : TableIndex),
    (896 ≤ s.cfg.tableLo.length ∧ 896 ≤ s.cfg.tableHi.length) ∨
      (s.zf = false ∧ s.cf = false ∧ 128 ≤ s.cfg.tableLo.length ∧ 128 ≤ s.cfg.tableHi.length) →
    step s = .next s' → s'.status ≠ .stopped (.indexOutOfRange idx)

/-! ### The control lines, rule by rule -/

/-- R124: HLT stops the engine before anything else, whatever other lines stand in the word. -/
def Obligations.HaltLineStopsBeforeEverything : Prop :=
  LineBit.default.hlt = 15 ∧
  (∀ (others : Lines) (s : State), s.status = .running →
    exec (.hlt others) s = .next { s with status := .stopped .haltAndCatchFire }) ∧
  ∀ (i : Instr) (l : Lines) (s : State), i.lines? = some l → l.hlt = true → s.status = .running →
    exec i s = .next { s with status := .stopped .haltAndCatchFire }

/-- 42_bus_drive_lines.md R140: RO drives the cell at the old `M`; it contends with any other driver. The next state of
the other lines of the word (`settled`) has MI before RI, the spec's decision D9 (log entry 9), and J modulo 16, its
decision D6 (log entry 10). -/
def Obligations.RoDrivesTheAddressedCell : Prop :=
  LineBit.default.ro = 12 ∧
  ∀ (others : Lines) (s : State), s.status = .running → others.hlt = false →
    ((others.assert .ro).drivers = [.ro] →
      exec (.ro others) s = .next (settled (others.assert .ro) (some (memRead s.mem s.m)) s)) ∧
    ((others.assert .ro).drivers ≠ [.ro] →
      exec (.ro others) s = .next { s with status := .stopped .busContention })

/-- 42_bus_drive_lines.md R141: IO drives the low nibble of `I`, zero-extended; it contends with any other driver. The
next state of the other lines of the word (`settled`) has MI before RI, the spec's decision D9 (log entry 9). -/
def Obligations.IoDrivesTheImmediate : Prop :=
  LineBit.default.io = 11 ∧
  ∀ (others : Lines) (s : State), s.status = .running → others.hlt = false →
    ((others.assert .io).drivers = [.io] →
      exec (.io others) s = .next (settled (others.assert .io) (some (BitVec.ofNat 8 (s.i.toNat % 16))) s)) ∧
    ((others.assert .io).drivers ≠ [.io] →
      exec (.io others) s = .next { s with status := .stopped .busContention })

/-- 42_bus_drive_lines.md R142: AO drives `A`; it contends with any other driver. The next state of the other lines of
the word (`settled`) has MI before RI, the spec's decision D9 (log entry 9), and J modulo 16, its decision D6 (log entry
10). -/
def Obligations.AoDrivesTheAccumulator : Prop :=
  LineBit.default.ao = 8 ∧
  ∀ (others : Lines) (s : State), s.status = .running → others.hlt = false →
    ((others.assert .ao).drivers = [.ao] →
      exec (.ao others) s = .next (settled (others.assert .ao) (some s.a) s)) ∧
    ((others.assert .ao).drivers ≠ [.ao] →
      exec (.ao others) s = .next { s with status := .stopped .busContention })

/-- 42_bus_drive_lines.md R143: EO drives the sum, or with SU the difference, modulo 256, of the old `A` and `B`; no
flag is written; it contends with any other driver. The next state of the other lines of the word (`settled`) has MI
before RI, the spec's decision D9 (log entry 9), and J modulo 16, its decision D6 (log entry 10). -/
def Obligations.EoDrivesTheSumOrDifference : Prop :=
  LineBit.default.eo = 7 ∧
  ∀ (others : Lines) (s : State), s.status = .running → others.hlt = false →
    ((others.assert .eo).drivers = [.eo] → others.su = false →
      exec (.eo others) s =
        .next (settled (others.assert .eo) (some (BitVec.ofNat 8 ((s.a.toNat + s.b.toNat) % 256))) s)) ∧
    ((others.assert .eo).drivers = [.eo] → others.su = true →
      exec (.eo others) s =
        .next (settled (others.assert .eo) (some (BitVec.ofNat 8 ((s.a.toNat + 256 - s.b.toNat) % 256))) s)) ∧
    ((others.assert .eo).drivers ≠ [.eo] →
      exec (.eo others) s = .next { s with status := .stopped .busContention })

/-- 42_bus_drive_lines.md R145: CO drives `C`, zero-extended, before any increment of the same word; it contends with
any other driver. The next state of the other lines of the word (`settled`) has MI before RI, the spec's decision D9
(log entry 9). -/
def Obligations.CoDrivesTheCounter : Prop :=
  LineBit.default.co = 2 ∧
  ∀ (others : Lines) (s : State), s.status = .running → others.hlt = false →
    ((others.assert .co).drivers = [.co] →
      exec (.co others) s = .next (settled (others.assert .co) (some (BitVec.ofNat 8 s.c.toNat)) s)) ∧
    ((others.assert .co).drivers ≠ [.co] →
      exec (.co others) s = .next { s with status := .stopped .busContention })

/-- 42_bus_drive_lines.md R144: without EO, a word with SU does exactly what the word without it does, which is the
spec's derivation (log entry 23); with EO and no other driver it selects the difference. A well-formed word that asserts
SU completes. The next state of the other lines of the word (`settled`) has MI before RI, the spec's decision D9 (log
entry 9), and J modulo 16, its decision D6 (log entry 10). -/
def Obligations.SuOnlyModifiesEo : Prop :=
  (∀ (i j : Instr) (li lj : Lines) (s : State), i.lines? = some li → j.lines? = some lj → li.eo = false →
    li.clear .su = lj.clear .su → exec i s = exec j s) ∧
  ∀ (others : Lines) (s : State), s.status = .running → (others.assert .su).wordClass = .wellFormed →
    exec (.su others) s = .next (settled (others.assert .su) (busOf (others.assert .su) s) s) ∧
    (others.eo = true → busOf (others.assert .su) s = some (BitVec.ofInt 8 ((s.a.toNat : Int) - s.b.toNat)))

/-- 43_bus_consume_lines.md R160: MI gives `M` the low four bits of the bus; without a driver it is FloatingBus. Two or
more drivers are in WordClassDecidesTheCondition. The next state of the other lines of the word (`settled`) has MI
before RI, the spec's decision D9 (log entry 9), and J modulo 16, its decision D6 (log entry 10). -/
def Obligations.MiLoadsTheAddressRegister : Prop :=
  LineBit.default.mi = 14 ∧
  ∀ (others : Lines) (s : State) (v : Byte), s.status = .running → others.hlt = false →
    ((others.assert .mi).drivers.length = 1 → busOf (others.assert .mi) s = some v →
      exec (.mi others) s = .next (settled (others.assert .mi) (some v) s) ∧
      (settled (others.assert .mi) (some v) s).m.toNat = v.toNat % 16) ∧
    ((others.assert .mi).drivers = [] → exec (.mi others) s = .next { s with status := .stopped .floatingBus })

/-- 43_bus_consume_lines.md R161, with the spec's order D9 (log entry 9): RI stores the bus value at `M` as MI of the
same word left it, and no other cell changes; without a driver it is FloatingBus and nothing is stored. J of the same
word is modulo 16, the spec's decision D6 (log entry 10). -/
def Obligations.RiStoresTheBus : Prop :=
  ∀ (others : Lines) (s : State) (v : Byte), s.status = .running → others.hlt = false →
    ((others.assert .ri).drivers.length = 1 → busOf (others.assert .ri) s = some v →
      exec (.ri others) s = .next (settled (others.assert .ri) (some v) s) ∧
      (Memory.wf s.mem → memRead (settled (others.assert .ri) (some v) s).mem (storeAddress others v s) = v) ∧
      ∀ addr : Nibble, addr ≠ storeAddress others v s →
        memRead (settled (others.assert .ri) (some v) s).mem addr = memRead s.mem addr) ∧
    ((others.assert .ri).drivers = [] → exec (.ri others) s = .next { s with status := .stopped .floatingBus })

/-- 43_bus_consume_lines.md R162: II gives `I` the bus, all eight bits, and the next micro-step's index uses the new
opcode; without a driver it is FloatingBus. The next state of the other lines of the word (`settled`) has MI before RI,
the spec's decision D9 (log entry 9), and J modulo 16, its decision D6 (log entry 10). The index layout is its decision
D5 (log entry 5). -/
def Obligations.IiLoadsTheInstructionRegister : Prop :=
  LineBit.default.ii = 10 ∧
  ∀ (others : Lines) (s : State) (v : Byte), s.status = .running → others.hlt = false →
    ((others.assert .ii).drivers.length = 1 → busOf (others.assert .ii) s = some v →
      exec (.ii others) s = .next (settled (others.assert .ii) (some v) s) ∧
      (settled (others.assert .ii) (some v) s).i = v ∧
      (settled (others.assert .ii) (some v) s).index = tableIndex s.zf s.cf v (s.t + 1)) ∧
    ((others.assert .ii).drivers = [] → exec (.ii others) s = .next { s with status := .stopped .floatingBus })

/-- 43_bus_consume_lines.md R163: AI gives `A` the bus; no flag is written; without a driver it is FloatingBus. The next
state of the other lines of the word (`settled`) has MI before RI, the spec's decision D9 (log entry 9), and J modulo
16, its decision D6 (log entry 10). -/
def Obligations.AiLoadsTheAccumulator : Prop :=
  LineBit.default.ai = 9 ∧
  ∀ (others : Lines) (s : State) (v : Byte), s.status = .running → others.hlt = false →
    ((others.assert .ai).drivers.length = 1 → busOf (others.assert .ai) s = some v →
      exec (.ai others) s = .next (settled (others.assert .ai) (some v) s) ∧
      (settled (others.assert .ai) (some v) s).a = v ∧
      (settled (others.assert .ai) (some v) s).zf = s.zf ∧ (settled (others.assert .ai) (some v) s).cf = s.cf) ∧
    ((others.assert .ai).drivers = [] → exec (.ai others) s = .next { s with status := .stopped .floatingBus })

/-- 43_bus_consume_lines.md R164: BI gives `B` the bus; without a driver it is FloatingBus. The next state of the other
lines of the word (`settled`) has MI before RI, the spec's decision D9 (log entry 9), and J modulo 16, its decision D6
(log entry 10). -/
def Obligations.BiLoadsTheSecondOperand : Prop :=
  LineBit.default.bi = 5 ∧
  ∀ (others : Lines) (s : State) (v : Byte), s.status = .running → others.hlt = false →
    ((others.assert .bi).drivers.length = 1 → busOf (others.assert .bi) s = some v →
      exec (.bi others) s = .next (settled (others.assert .bi) (some v) s) ∧
      (settled (others.assert .bi) (some v) s).b = v ∧
      (settled (others.assert .bi) (some v) s).zf = s.zf ∧ (settled (others.assert .bi) (some v) s).cf = s.cf) ∧
    ((others.assert .bi).drivers = [] → exec (.bi others) s = .next { s with status := .stopped .floatingBus })

/-- 43_bus_consume_lines.md R166: OI appends the bus value to the trace, once, and its line of text to the sink; without
a driver it is FloatingBus and nothing is emitted. The text is the spec's decision D10 (log entry 18). The next state of
the other lines of the word (`settled`) has MI before RI, the spec's decision D9 (log entry 9), and J modulo 16, its
decision D6 (log entry 10). -/
def Obligations.OiEmitsTheBus : Prop :=
  LineBit.default.oi = 4 ∧
  ∀ (others : Lines) (s : State) (v : Byte), s.status = .running → others.hlt = false →
    ((others.assert .oi).drivers.length = 1 → busOf (others.assert .oi) s = some v →
      exec (.oi others) s = .next (settled (others.assert .oi) (some v) s) ∧
      (settled (others.assert .oi) (some v) s).out = s.out ++ [v] ∧
      sinkText (settled (others.assert .oi) (some v) s) = sinkText s ++ outputLine s.cfg.lineTerminator v) ∧
    ((others.assert .oi).drivers = [] → exec (.oi others) s = .next { s with status := .stopped .floatingBus })

/-- 43_bus_consume_lines.md R167, with the spec's reduction D6 (log entry 10): J gives `C` the bus modulo 16, and CE of
the same word counts after it; without a driver it is FloatingBus and `C` stays. MI and RI of the same word are in the
spec's order D9 (log entry 9). -/
def Obligations.JumpLoadsTheCounter : Prop :=
  ∀ (others : Lines) (s : State) (v : Byte), s.status = .running → others.hlt = false →
    ((others.assert .j).drivers.length = 1 → busOf (others.assert .j) s = some v →
      exec (.j others) s = .next (settled (others.assert .j) (some v) s) ∧
      (settled (others.assert .j) (some v) s).c.toNat = (v.toNat % 16 + others.ce.toNat) % 16) ∧
    ((others.assert .j).drivers = [] → exec (.j others) s = .next { s with status := .stopped .floatingBus })

/-- 44_counter_and_flags_lines.md R180: CE counts modulo 16, after CO and J of the same word, whether the bus is driven
or not; it raises nothing of its own and happens only in a word that raises nothing; sixteen counts come back to the
start. The next state of the other lines of the word (`settled`) has MI before RI, the spec's decision D9 (log entry 9),
and J modulo 16, its decision D6 (log entry 10). -/
def Obligations.CeCountsModulo16 : Prop :=
  LineBit.default.ce = 3 ∧
  (∀ (others : Lines) (s : State), s.status = .running →
    (others.assert .ce).wordClass = (others.clear .ce).wordClass ∧
    ((others.assert .ce).wordClass = .wellFormed →
      exec (.ce others) s = .next (settled (others.assert .ce) (busOf (others.assert .ce) s) s) ∧
      (others.j = false →
        (settled (others.assert .ce) (busOf (others.assert .ce) s) s).c.toNat = (s.c.toNat + 1) % 16)) ∧
    ((others.assert .ce).wordClass ≠ .wellFormed →
      ∃ x, exec (.ce others) s = .next { s with status := .stopped x })) ∧
  ∀ s : State, (performed { ce := true })^[16] s = s

/-- 44_counter_and_flags_lines.md R181: FI changes nothing: a word with FI does exactly what the word without it does,
and alone it changes nothing but `T` (log entry 21). The next state of the other lines of the word (`settled`) has MI
before RI, the spec's decision D9 (log entry 9), and J modulo 16, its decision D6 (log entry 10). -/
def Obligations.FiChangesNothing : Prop :=
  LineBit.default.fi = 0 ∧
  (∀ (i j : Instr) (li lj : Lines) (s : State), i.lines? = some li → j.lines? = some lj →
    li.clear .fi = lj.clear .fi → exec i s = exec j s) ∧
  ∀ s : State, s.status = .running →
    exec (.fi {}) s = .next { s with t := s.t + 1 } ∧
    ∀ others : Lines, (others.assert .fi).wordClass = .wellFormed →
      exec (.fi others) s = .next (settled (others.assert .fi) (busOf (others.assert .fi) s) s)

/-! ### The dispatcher as a whole -/

/-- 41_bus_and_dispatch.md R123, R128, with the spec's order D9 of the consumers (log entry 9) and its reduction D6 of J
(log entry 10): every well-formed word completes, of every row but HLT (which has none), and its next state is the one
the rules of its lines give together. -/
def Obligations.WellFormedWordsArePerformed : Prop :=
  ∀ (i : Instr) (l : Lines) (s : State), i.lines? = some l → s.status = .running → l.wordClass = .wellFormed →
    exec i s = .next (settled l (busOf l s) s)

/-- 30_encoding.md R78, 41_bus_and_dispatch.md R125, R126: the class of a word decides which condition it raises, and a
word that raises one changes nothing but `STATUS`. -/
def Obligations.WordClassDecidesTheCondition : Prop :=
  ∀ (i : Instr) (l : Lines) (s : State), i.lines? = some l → s.status = .running →
    (l.wordClass = .halt → exec i s = .next { s with status := .stopped .haltAndCatchFire }) ∧
    (l.wordClass = .contention → exec i s = .next { s with status := .stopped .busContention }) ∧
    (l.wordClass = .floating → exec i s = .next { s with status := .stopped .floatingBus }) ∧
    (l.wordClass = .wellFormed → ∃ s', exec i s = .next s' ∧ s'.status = .running ∧ s'.t = s.t + 1)

/-- 41_bus_and_dispatch.md R127, 60_exceptions.md R214: a control word is performed whole, or raises and changes nothing
but `STATUS`. What the whole is rests, for MI with RI and for J, on the spec's decisions D9 and D6 (log entries 9 and
10). -/
def Obligations.ControlWordIsAllOrNothing : Prop :=
  ∀ (i : Instr) (l : Lines) (s s' : State), i.lines? = some l → exec i s = .next s' →
    (∀ x, s'.status = .stopped x → s' = { s with status := .stopped x } ∧ l.wordClass ≠ .wellFormed) ∧
    (s'.status = .running → s' = settled l (busOf l s) s ∧ l.wordClass = .wellFormed)

/-- The frame of a control word (10_state.md R27): each register changes only if its line is asserted, the flags, the
configuration and the host's request never, and no cell but the one the word stores to. That a word with MI and RI
stores at the new `M` is the spec's decision D9 (log entry 9). -/
def Obligations.ControlWordFrame : Prop :=
  ∀ (i : Instr) (l : Lines) (s s' : State), i.lines? = some l → exec i s = .next s' →
    (l.ai = false → s'.a = s.a) ∧ (l.bi = false → s'.b = s.b) ∧ (l.ii = false → s'.i = s.i) ∧
    (l.mi = false → s'.m = s.m) ∧ (l.j = false → l.ce = false → s'.c = s.c) ∧
    s'.zf = s.zf ∧ s'.cf = s.cf ∧ s'.cfg = s.cfg ∧ s'.call = s.call ∧
    (l.oi = false → s'.out = s.out) ∧ (∃ new, s'.out = s.out ++ new ∧ new.length ≤ 1) ∧
    (s'.t = s.t + 1 ∧ s'.status = .running ∨ s'.t = s.t ∧ s'.status ≠ .running) ∧
    (l.ri = false → ∀ addr : Nibble, memRead s'.mem addr = memRead s.mem addr) ∧
    (busOf l s = none → ∀ addr : Nibble, memRead s'.mem addr = memRead s.mem addr) ∧
    ∀ v, busOf l s = some v → ∀ addr : Nibble, addr ≠ storeAddress l v s →
      memRead s'.mem addr = memRead s.mem addr

/-- The frame of an instruction cycle (10_state.md R27, 45_instruction_cycle.md R192): whatever the tables hold, the
flags, the configuration and the host's request stay and the trace only grows; what no word of the tables writes stays.
The byte that `I` starts with is the instruction's (log entry 14). -/
def Obligations.InstructionCycleFrame : Prop :=
  ∀ (opcode imm : Nibble) (s s' : State), exec (.instr opcode imm) s = .next s' →
    s'.zf = s.zf ∧ s'.cf = s.cf ∧ s'.cfg = s.cfg ∧ s'.call = s.call ∧
    (∃ new, s'.out = s.out ++ new ∧ new.length ≤ 8) ∧
    ((∀ idx l, linesAt s.cfg idx = some l → l.oi = false) → s'.out = s.out) ∧
    ((∀ idx l, linesAt s.cfg idx = some l → l.ai = false) → s'.a = s.a) ∧
    ((∀ idx l, linesAt s.cfg idx = some l → l.bi = false) → s'.b = s.b) ∧
    ((∀ idx l, linesAt s.cfg idx = some l → l.mi = false) → s'.m = s.m) ∧
    ((∀ idx l, linesAt s.cfg idx = some l → l.ii = false) → s'.i = instructionByte opcode imm) ∧
    ((∀ idx l, linesAt s.cfg idx = some l → l.j = false ∧ l.ce = false) → s'.c = s.c) ∧
    ((∀ idx l, linesAt s.cfg idx = some l → l.ri = false) →
      ∀ addr : Nibble, memRead s'.mem addr = memRead s.mem addr)

/-- The stores of an instruction cycle (43_bus_consume_lines.md R161 in each of the micro-steps of
45_instruction_cycle.md R192): a cell that no micro-step the cycle performs stores to, at the address that its word and
bus value give, reads as before. That the cycle begins with the instruction's byte in `I` is log entry 14; that a word
with MI and RI stores at the new `M` is the spec's decision D9 (log entry 9). -/
def Obligations.CycleStoresOnlyWhereItsWordsStore : Prop :=
  ∀ (opcode imm : Nibble) (s s' : State) (addr : Nibble), exec (.instr opcode imm) s = .next s' →
    (∀ k < 8, ∀ u, microSteps k { s with i := instructionByte opcode imm } = u → u.status = .running →
      ∀ l v, linesAt u.cfg u.index = some l → l.wordClass = .wellFormed → l.ri = true → busOf l u = some v →
        addr ≠ storeAddress l v u) →
    memRead s'.mem addr = memRead s.mem addr

/-- 20_memory.md R58, R61: a store is seen by the very next read of the cell, and so by the fetch word RO|II performed
next (with no CO|MI before it). That a word with MI and RI stores at the new `M` is the spec's decision D9 (log entry
9). -/
def Obligations.StoreIsSeenByTheNextFetch : Prop :=
  ∀ (i : Instr) (l : Lines) (s s' : State) (v : Byte), i.lines? = some l → l.wordClass = .wellFormed → l.ri = true →
    busOf l s = some v → Memory.wf s.mem → exec i s = .next s' →
    s'.m = storeAddress l v s ∧ ∃ s'', exec (.ii { ro := true }) s' = .next s'' ∧ s''.i = v

/-! ### The step of the machine -/

/-- A step runs the decoded instruction (45_instruction_cycle.md R190, R192): the word fetched at this micro-step's
index, or the byte in `I` where the host asks for a whole cycle; the word with no line only advances `T` (R79), and a
fetch that raises changes only `STATUS` (R213). -/
def Obligations.StepRunsTheDecodedInstruction : Prop :=
  ∀ s : State, s.status = .running →
    (s.call = .microStep → ∀ cw, fetchWord s = .ok cw →
      (∀ i, decodeControlWord s.cfg.lineBit cw = .ok i → step s = exec i s) ∧
      (∀ e, decodeControlWord s.cfg.lineBit cw = .error e → step s = .next { s with t := s.t + 1 })) ∧
    (s.call = .microStep → ∀ x, fetchWord s = .error x → step s = .next { s with status := .stopped x }) ∧
    (s.call = .instructionCycle → step s = exec (decodeInstructionByte s.i) s)

/-- The word the host places is the one the very next step runs (log entry 16, the model's own). -/
def Obligations.PlacedWordRunsNext : Prop :=
  ∀ (s : State) (nbits w : Nat) (i : Instr), s.cfg.lineBit.wf = true → decodeTableWord nbits w = some i →
    step (s.withFetchWord nbits w) = exec i (s.withFetchWord nbits w)

/-- 10_state.md R29, 60_exceptions.md R215, R217: a stopped engine takes no step and runs no instruction ever again. A
halted one is refused and a faulted one answers its fault (the spec's decisions D8 and D15, log entry 8). -/
def Obligations.StoppedEngineHasNoTransition : Prop :=
  ∀ (s : State) (x : Condition), s.status = .stopped x →
    s.quiescent ∧ (∀ i s', exec i s ≠ .next s') ∧
    (s.final → step s = .refused .halted) ∧ (s.faulted → ∃ f, step s = .fault f)

/-- 45_instruction_cycle.md R194 (the spec's decision D8): `step()` is refused off a cycle boundary. -/
def Obligations.MidCycleInstructionIsRefused : Prop :=
  ∀ (opcode imm : Nibble) (s : State), s.status = .running → s.t ≠ 0 →
    exec (.instr opcode imm) s = .refused (.midCycle s.t)

/-- 10_state.md R36: every step, from any state that meets it and not only from states that a run reaches, keeps memory
in canonical form and the flags clear. -/
def Obligations.StepKeepsTheInvariant : Prop :=
  ∀ s s' : State, s.Inv → step s = .next s' → s'.Inv

/-- The invariant holds where a run starts: after creation with any configuration, and at reset (10_state.md R35, R36).
That both flags are clear at creation is the spec's decision D16 (log entry 17). -/
def Obligations.CreatedStateMeetsTheInvariant : Prop :=
  (∀ cfg, (State.create cfg).Inv) ∧ State.reset.Inv

/-- 10_state.md R26, R32, 70_reset_and_hazards.md R250: nothing writes a flag or the configuration, in any state. -/
def Obligations.NoStepWritesFlagsOrConfiguration : Prop :=
  ∀ s s' : State, step s = .next s' → s'.zf = s.zf ∧ s'.cf = s.cf ∧ s'.cfg = s.cfg ∧ s'.call = s.call

/-- 40_control_word_fetch.md R105, 30_encoding.md R81: from reset only the indices `(opcode << 3) or T`, all below 128,
are read; the layout is the spec's decision D5 (log entry 5). -/
def Obligations.InvariantKeepsTheIndexBelow128 : Prop :=
  ∀ s : State, s.Inv → s.index.toNat = 8 * (s.i.toNat / 16) + s.t.toNat ∧ s.index.toNat < 128

/-- 60_exceptions.md R211: whether and how a micro-step stops depends on the configuration, the flags, the opcode and
`T` alone: never on `A`, `B`, `M`, `C`, the immediate, memory or the trace. -/
def Obligations.ConditionsIgnoreTheData : Prop :=
  ∀ s s' : State, s.status = .running → s'.status = .running → s.call = .microStep → s'.call = .microStep →
    s.cfg = s'.cfg → s.zf = s'.zf → s.cf = s'.cf → s.i.toNat / 16 = s'.i.toNat / 16 → s.t = s'.t →
    ∃ u u', step s = .next u ∧ step s' = .next u' ∧ u.status = u'.status ∧ u.t = u'.t

/-- 70_reset_and_hazards.md R253 (the spec's decision D12, log entry 25), for every state: the index port shows the
index, the table port the two bytes at it where both tables hold it, the status port the number of R210 (the spec's
numbers, its decision D8), and the output port the bus value in exactly the micro-steps that perform OI: none for a word
that raises or lacks OI, where the fetch raises, or on a stopped engine. -/
def Obligations.PortsShowIndexAndEmission : Prop :=
  ∀ s : State,
    (ports s).romIndex = s.index ∧
    (∀ (hlo : s.index.toNat < s.cfg.tableLo.length) (hhi : s.index.toNat < s.cfg.tableHi.length),
      (ports s).rom = some (s.cfg.tableLo[s.index.toNat], s.cfg.tableHi[s.index.toNat])) ∧
    (s.cfg.tableLo.length ≤ s.index.toNat ∨ s.cfg.tableHi.length ≤ s.index.toNat → (ports s).rom = none) ∧
    (s.status = .running → (ports s).status = 0) ∧
    (s.status = .stopped .haltAndCatchFire → (ports s).status = 1) ∧
    (s.status = .stopped .floatingBus → (ports s).status = 2) ∧
    (s.status = .stopped .busContention → (ports s).status = 3) ∧
    (∀ idx, s.status = .stopped (.indexOutOfRange idx) → (ports s).status = 4) ∧
    (∀ l, s.status = .running → linesAt s.cfg s.index = some l →
      (ports s).outValue = if l.wordClass = .wellFormed ∧ l.oi = true then busOf l s else none) ∧
    (s.status ≠ .running ∨ linesAt s.cfg s.index = none → (ports s).outValue = none)

/-- 10_state.md R33 (the spec's decision D10, log entry 18): the sink shows, for each value in order, `out `, the value
in decimal without leading zeros, and the terminator. -/
def Obligations.SinkTextIsDecimal : Prop :=
  (∀ s : State, sinkText s = (s.out.map fun v =>
    [0x6F, 0x75, 0x74, 0x20] ++ decimalText v ++ s.cfg.lineTerminator).flatten) ∧
  ∀ v : Byte, (decimalText v).map BitVec.toNat =
    if v = 0 then [48] else ((Nat.digits 10 v.toNat).map (48 + ·)).reverse

/-! ### The instruction cycle -/

/-- R192: `step()` is eight micro-steps of the machine, one after another, stopping at the first that raises, whatever
the host asks for; and where it asks for a whole cycle, that is what the step of the machine does. -/
def Obligations.CycleIsEightMicroSteps : Prop :=
  ∀ s : State, s.status = .running → s.t = 0 →
    exec (decodeInstructionByte s.i) s = .next (afterMicroSteps 8 s) ∧
    (s.call = .instructionCycle → step s = .next (afterMicroSteps 8 s))

/-- 45_instruction_cycle.md R191, R192: the cycle of every instruction byte completes at a cycle boundary of a running
engine; where no micro-step raised, it is back at `T = 0`. That the byte is the one `I` holds is log entry 14. -/
def Obligations.CycleReturnsToItsBoundary : Prop :=
  ∀ (opcode imm : Nibble) (s : State), s.status = .running → s.t = 0 →
    ∃ s', exec (.instr opcode imm) s = .next s' ∧
      exec (.instr opcode imm) s = exec (.instr opcode imm) { s with i := BitVec.ofNat 8 (16 * opcode.toNat + imm.toNat) } ∧
      (s'.status = .running → s'.t = 0)

/-- R193: if micro-step `k` of a cycle raises, the effects of the earlier ones stay, it changes nothing but `STATUS`,
the later ones do not happen, and the engine stops at `T = k`; for the cycle of the byte in `I` as an instruction, and
as the step of a host that asks for a whole cycle. -/
def Obligations.FailureInsideACycleKeepsEarlierSteps : Prop :=
  ∀ (s s' : State) (x : Condition), s.status = .running → s.t = 0 →
    (exec (decodeInstructionByte s.i) s = .next s' ∨ s.call = .instructionCycle ∧ step s = .next s') →
    s'.status = .stopped x →
    ∃ k < 8, (afterMicroSteps k s).status = .running ∧ (afterMicroSteps k s).t = BitVec.ofNat 3 k ∧
      step { afterMicroSteps k s with call := .microStep } =
        .next { afterMicroSteps k s with call := .microStep, status := .stopped x } ∧
      s' = { afterMicroSteps k s with status := .stopped x }

/-- 45_instruction_cycle.md R195: under a table that follows the fetch convention, the first two micro-steps of a cycle
load `I` from the cell `C` addresses, leave that address in `M`, and count `C` once, whatever instruction ran before. -/
def Obligations.FetchConventionLoadsTheInstruction : Prop :=
  ∀ s : State, s.status = .running → s.t = 0 → s.call = .microStep → fetchConvention s.cfg s.zf s.cf →
    stepsWhileRunning 2 s =
      { s with m := s.c, i := memRead s.mem s.c, c := BitVec.ofNat 4 (s.c.toNat + 1), t := 2 }

/-- 45_instruction_cycle.md R195, 95_test_vectors.md X6: under the fetch convention, where the micro-steps 2 to 7 assert
none of II, J and CE, a completed cycle from `C = c` leaves the byte of cell `c` in `I` and counts `C` exactly once. -/
def Obligations.ConventionalCycleCountsOnce : Prop :=
  ∀ s s' : State, s.status = .running → s.call = .instructionCycle → fetchConvention s.cfg s.zf s.cf →
    (∀ (i : Byte) (t : MicroNumber) (l : Lines), 2 ≤ t.toNat → linesAt s.cfg (tableIndex s.zf s.cf i t) = some l →
      l.ii = false ∧ l.j = false ∧ l.ce = false) →
    step s = .next s' → s'.status = .running →
    s'.i = memRead s.mem s.c ∧ s'.c = BitVec.ofNat 4 (s.c.toNat + 1) ∧ s'.t = 0
end

