-- ==== Sys2Proof/Laws/State.lean ====
section
/-! SUPPORT. One lemma for each field and each named update of the state, so that no later proof unfolds a record
update. -/

namespace Sys2Proof.Machine

section
variable (x : Condition) (v : Byte) (s : State) (cfg : Config)

@[simp] theorem raise_a : (raise x s).a = s.a := rfl
@[simp] theorem raise_b : (raise x s).b = s.b := rfl
@[simp] theorem raise_i : (raise x s).i = s.i := rfl
@[simp] theorem raise_m : (raise x s).m = s.m := rfl
@[simp] theorem raise_c : (raise x s).c = s.c := rfl
@[simp] theorem raise_zf : (raise x s).zf = s.zf := rfl
@[simp] theorem raise_cf : (raise x s).cf = s.cf := rfl
@[simp] theorem raise_mem : (raise x s).mem = s.mem := rfl
@[simp] theorem raise_t : (raise x s).t = s.t := rfl
@[simp] theorem raise_status : (raise x s).status = .stopped x := rfl
@[simp] theorem raise_out : (raise x s).out = s.out := rfl
@[simp] theorem raise_cfg : (raise x s).cfg = s.cfg := rfl
@[simp] theorem raise_call : (raise x s).call = s.call := rfl

@[simp] theorem advance_a : (advance s).a = s.a := rfl
@[simp] theorem advance_b : (advance s).b = s.b := rfl
@[simp] theorem advance_i : (advance s).i = s.i := rfl
@[simp] theorem advance_m : (advance s).m = s.m := rfl
@[simp] theorem advance_c : (advance s).c = s.c := rfl
@[simp] theorem advance_zf : (advance s).zf = s.zf := rfl
@[simp] theorem advance_cf : (advance s).cf = s.cf := rfl
@[simp] theorem advance_mem : (advance s).mem = s.mem := rfl
@[simp] theorem advance_t : (advance s).t = s.t + 1 := rfl
@[simp] theorem advance_status : (advance s).status = s.status := rfl
@[simp] theorem advance_out : (advance s).out = s.out := rfl
@[simp] theorem advance_cfg : (advance s).cfg = s.cfg := rfl
@[simp] theorem advance_call : (advance s).call = s.call := rfl

@[simp] theorem emit_a : (emit v s).a = s.a := rfl
@[simp] theorem emit_b : (emit v s).b = s.b := rfl
@[simp] theorem emit_i : (emit v s).i = s.i := rfl
@[simp] theorem emit_m : (emit v s).m = s.m := rfl
@[simp] theorem emit_c : (emit v s).c = s.c := rfl
@[simp] theorem emit_zf : (emit v s).zf = s.zf := rfl
@[simp] theorem emit_cf : (emit v s).cf = s.cf := rfl
@[simp] theorem emit_mem : (emit v s).mem = s.mem := rfl
@[simp] theorem emit_t : (emit v s).t = s.t := rfl
@[simp] theorem emit_status : (emit v s).status = s.status := rfl
@[simp] theorem emit_out : (emit v s).out = s.out ++ [v] := rfl
@[simp] theorem emit_cfg : (emit v s).cfg = s.cfg := rfl
@[simp] theorem emit_call : (emit v s).call = s.call := rfl

@[simp] theorem flagsUpdate_a : (flagsUpdate s).a = s.a := rfl
@[simp] theorem flagsUpdate_b : (flagsUpdate s).b = s.b := rfl
@[simp] theorem flagsUpdate_i : (flagsUpdate s).i = s.i := rfl
@[simp] theorem flagsUpdate_m : (flagsUpdate s).m = s.m := rfl
@[simp] theorem flagsUpdate_c : (flagsUpdate s).c = s.c := rfl
@[simp] theorem flagsUpdate_zf : (flagsUpdate s).zf = s.zf := rfl
@[simp] theorem flagsUpdate_cf : (flagsUpdate s).cf = s.cf := rfl
@[simp] theorem flagsUpdate_mem : (flagsUpdate s).mem = s.mem := rfl
@[simp] theorem flagsUpdate_t : (flagsUpdate s).t = s.t := rfl
@[simp] theorem flagsUpdate_status : (flagsUpdate s).status = s.status := rfl
@[simp] theorem flagsUpdate_out : (flagsUpdate s).out = s.out := rfl
@[simp] theorem flagsUpdate_cfg : (flagsUpdate s).cfg = s.cfg := rfl
@[simp] theorem flagsUpdate_call : (flagsUpdate s).call = s.call := rfl

@[simp] theorem create_a : (State.create cfg).a = 0 := rfl
@[simp] theorem create_b : (State.create cfg).b = 0 := rfl
@[simp] theorem create_i : (State.create cfg).i = 0 := rfl
@[simp] theorem create_m : (State.create cfg).m = 0 := rfl
@[simp] theorem create_c : (State.create cfg).c = 0 := rfl
@[simp] theorem create_zf : (State.create cfg).zf = false := rfl
@[simp] theorem create_cf : (State.create cfg).cf = false := rfl
@[simp] theorem create_mem : (State.create cfg).mem = [] := rfl
@[simp] theorem create_t : (State.create cfg).t = 0 := rfl
@[simp] theorem create_status : (State.create cfg).status = .running := rfl
@[simp] theorem create_out : (State.create cfg).out = [] := rfl
@[simp] theorem create_cfg : (State.create cfg).cfg = cfg := rfl
@[simp] theorem create_call : (State.create cfg).call = .microStep := rfl

end

end Sys2Proof.Machine
end

