-- ==== Sys2Proof/Laws/Apply.lean ====
section
/-! SUPPORT. What the bus, the lines and the dispatcher can do, once each: later proofs cite these and do not unfold the
operations. -/

namespace Sys2Proof.Machine

variable {w w' : Micro} {s s' : State} {l : Lines} {v : Byte} {x : Condition}

/-! ### The bus -/

@[simp] theorem drive_empty (s : State) (v : Byte) : drive v { bus := none, st := s } = .ok { bus := some v, st := s } := rfl

@[simp] theorem drive_driven (s : State) (u v : Byte) : drive v { bus := some u, st := s } = .error .busContention := rfl

@[simp] theorem consume_driven (s : State) (v : Byte) (take : Byte → State → State) :
    consume { bus := some v, st := s } take = .ok { bus := some v, st := take v s } := rfl

@[simp] theorem consume_empty (s : State) (take : Byte → State → State) :
    consume { bus := none, st := s } take = .error .floatingBus := rfl

/-- A drive that goes on found the bus empty, puts its value there and leaves the state. -/
theorem drive_ok (h : drive v w = .ok w') : w.bus = none ∧ w' = { w with bus := some v } := by
  obtain ⟨_ | u, s⟩ := w
  · exact ⟨rfl, by simpa [drive, eq_comm] using h⟩
  · simp [drive] at h

/-- A drive that stops is contention. -/
theorem drive_error (h : drive v w = .error x) : w.bus ≠ none ∧ x = .busContention := by
  obtain ⟨_ | u, s⟩ := w
  · simp [drive] at h
  · exact ⟨by simp, by simpa [drive, eq_comm] using h⟩

/-! ### A running engine -/

theorem whenRunning_running {act : Outcome} (h : s.status = .running) : whenRunning s act = act := by
  simp [whenRunning, h]

theorem whenRunning_stopped {act : Outcome} (h : s.status = .stopped x) : whenRunning s act = stoppedOutcome x := by
  simp [whenRunning, h]

theorem stoppedOutcome_ne_next : stoppedOutcome x ≠ .next s := by cases x <;> simp [stoppedOutcome]

/-- A next state comes from a running engine and from the act itself. -/
theorem whenRunning_next {act : Outcome} (h : whenRunning s act = .next s') : s.status = .running ∧ act = .next s' := by
  cases hs : s.status with
  | running => exact ⟨rfl, by rwa [whenRunning_running hs] at h⟩
  | stopped c => exact absurd (whenRunning_stopped hs ▸ h) stoppedOutcome_ne_next

theorem performWord_next (h : performWord l s = .next s') : s.status = .running ∧ s' = performed l s := by
  obtain ⟨hr, h⟩ := whenRunning_next h
  exact ⟨hr, by simpa [eq_comm] using h⟩

theorem performWord_running (h : s.status = .running) : performWord l s = .next (performed l s) :=
  whenRunning_running h

/-- A performed word goes through `apply`, or raises. -/
theorem performed_cases (l : Lines) (s : State) :
    (∃ s', applyWord l s = .ok s' ∧ performed l s = advance s') ∨
      (∃ x, applyWord l s = .error x ∧ performed l s = raise x s) := by
  cases h : applyWord l s with
  | ok s' => exact .inl ⟨s', rfl, by simp [performed, h]⟩
  | error x => exact .inr ⟨x, rfl, by simp [performed, h]⟩

/-! ### The items of the apply order -/

/-- The seven consumers on a driven bus: each asserted one takes the value, in list order. -/
theorem consumeLines_driven (l : Lines) (s : State) (v : Byte) :
    consumeLines l { bus := some v, st := s } = .ok { bus := some v, st := { s with
      m := if l.mi then lowNibble v else s.m
      mem := if l.ri then memWrite s.mem (if l.mi then lowNibble v else s.m) v else s.mem
      i := if l.ii then v else s.i
      a := if l.ai then v else s.a
      b := if l.bi then v else s.b
      out := if l.oi then s.out ++ [v] else s.out
      c := if l.j then lowNibble v else s.c } } := by
  obtain ⟨_, mi, ri, _, _, ii, ai, _, _, _, bi, oi, _, _, j, _⟩ := l
  cases mi <;> cases ri <;> cases ii <;> cases ai <;> cases bi <;> cases oi <;> cases j <;> rfl

/-- The seven consumers on an empty bus: FloatingBus at the first asserted one. -/
theorem consumeLines_empty (l : Lines) (s : State) :
    consumeLines l { bus := none, st := s } =
      if l.mi || l.ri || l.ii || l.ai || l.bi || l.oi || l.j then .error .floatingBus
      else .ok { bus := none, st := s } := by
  obtain ⟨_, mi, ri, _, _, ii, ai, _, _, _, bi, oi, _, _, j, _⟩ := l
  cases mi <;> cases ri <;> cases ii <;> cases ai <;> cases bi <;> cases oi <;> cases j <;> rfl

/-- The five drivers on an empty bus change no state: they leave it empty, put one value there, or stop with
contention. -/
theorem driveLines_cases (l : Lines) (s : State) :
    (driveLines l { bus := none, st := s } = .ok { bus := none, st := s } ∧
      (l.ro || l.io || l.ao || l.eo || l.co) = false) ∨
    (∃ v, driveLines l { bus := none, st := s } = .ok { bus := some v, st := s }) ∨
    driveLines l { bus := none, st := s } = .error .busContention := by
  obtain ⟨_, _, _, ro, io, _, _, ao, eo, _, _, _, _, co, _, _⟩ := l
  cases ro <;> cases io <;> cases ao <;> cases eo <;> cases co <;>
    first
      | exact .inl ⟨rfl, rfl⟩
      | exact .inr (.inl ⟨_, rfl⟩)
      | exact .inr (.inr rfl)

end Sys2Proof.Machine
end

