-- ==== Sys2Proof/Laws/Cycle.lean ====
section
/-! SUPPORT. The small lemmas of the steps that make a cycle (`stepsWhileRunning`, `afterMicroSteps`). -/

namespace Sys2Proof.Machine

variable {n : Nat} {s s' : State}

@[simp] theorem stepsWhileRunning_zero : stepsWhileRunning 0 s = s := rfl

/-- A running engine takes its step, then the rest. -/
theorem stepsWhileRunning_succ (hr : s.status = .running) (hs : step s = .next s') :
    stepsWhileRunning (n + 1) s = stepsWhileRunning n s' := by
  simp [stepsWhileRunning, hr, hs]

/-- A stopped engine stays as it is. -/
theorem stepsWhileRunning_stopped (h : s.status ≠ .running) : stepsWhileRunning n s = s := by
  cases n with
  | zero => rfl
  | succ n =>
    cases hs : s.status with
    | running => exact absurd hs h
    | stopped x => simp [stepsWhileRunning, hs]

@[simp] theorem afterMicroSteps_zero : afterMicroSteps 0 s = s := rfl
@[simp] theorem afterMicroSteps_call : (afterMicroSteps n s).call = s.call := rfl
@[simp] theorem afterMicroSteps_status :
    (afterMicroSteps n s).status = (stepsWhileRunning n { s with call := .microStep }).status := rfl
@[simp] theorem afterMicroSteps_t :
    (afterMicroSteps n s).t = (stepsWhileRunning n { s with call := .microStep }).t := rfl

end Sys2Proof.Machine
end

