-- ==== Sys2Proof/Laws/Step.lean ====
section
/-! SUPPORT. What the decoder answers, what `exec` does with a control word, and what one step of the machine can do. -/

namespace Sys2Proof

variable {l : Lines} {i : Instr} {lb : LineBit} {cw : ControlWord}

theorem ofLine_lines (L : Line) (l : Lines) : (Instr.ofLine L l).lines? = some (l.assert L) := by
  cases L <;> rfl

theorem assert_clear {L : Line} (h : l.has L = true) : (l.clear L).assert L = l := by
  cases l
  cases L <;> simp_all [Lines.has, Lines.clear, Lines.assert]

/-- The decoder drops no line: the instruction it gives asserts exactly the lines it was given. -/
theorem instrOfLines_lines (h : instrOfLines l = .ok i) : i.lines? = some l := by
  unfold instrOfLines at h
  split at h
  · next L hL =>
    cases h
    rw [ofLine_lines, assert_clear (List.find?_some hL)]
  · cases h

theorem decodeControlWord_lines (h : decodeControlWord lb cw = .ok i) : i.lines? = some (linesOf lb cw) :=
  instrOfLines_lines h

/-- The two fields of an instruction byte, put together again, are the byte. -/
theorem instructionByte_fields (b : Byte) :
    instructionByte (b.extractLsb' 4 4) (b.extractLsb' 0 4) = b := by
  simp only [instructionByte]
  rw [BitVec.extractLsb'_append_extractLsb'_eq_extractLsb' (by omega)]
  simp

namespace Machine

variable {s s' : State}

/-- Every control-word instruction performs the word of its lines. -/
theorem exec_controlWord (h : i.lines? = some l) : exec i s = performWord l s := by
  cases i <;> simp only [Instr.lines?, Option.some.injEq, reduceCtorEq] at h <;> subst h <;> rfl

theorem exec_instr (opcode imm : Nibble) : exec (.instr opcode imm) s = execInstr opcode imm s := rfl

/-- The instruction cycle, where it has a next state. -/
theorem execInstr_next {opcode imm : Nibble} (h : execInstr opcode imm s = .next s') :
    s.status = .running ∧ s.t = 0 ∧ s' = microSteps nSteps { s with i := instructionByte opcode imm } := by
  obtain ⟨hr, h⟩ := whenRunning_next h
  split at h
  · exact ⟨hr, ‹_›, by simpa [eq_comm] using h⟩
  · simp at h

/-- A micro-step performs the fetched word, or the fetch raised. -/
theorem microStep_cases (s : State) :
    (∃ cw, fetchWord s = .ok cw ∧ microStep s = performed (linesOf s.cfg.lineBit cw) s) ∨
      (∃ x, fetchWord s = .error x ∧ microStep s = raise x s) := by
  cases h : fetchWord s with
  | ok cw => exact .inl ⟨cw, rfl, by simp [microStep, h]⟩
  | error x => exact .inr ⟨x, rfl, by simp [microStep, h]⟩

/-- The decoded and dispatched micro-step of the machine is `MicroStep` of R190. -/
theorem runFetched_eq (h : s.status = .running) : runFetched exec s = .next (microStep s) := by
  unfold runFetched microStep
  cases fetchWord s with
  | error x => rfl
  | ok cw =>
    simp only
    split
    · next i hi => rw [exec_controlWord (decodeControlWord_lines hi), performWord_running h]
    · rw [performWord_running h]

/-- Everything a step can do: a stopped engine has no next state; a running one takes a micro-step, or at a cycle
boundary a whole cycle of the byte in `I`, as the host asked. -/
theorem step_next_cases (h : step s = .next s') :
    s.status = .running ∧
      ((s.call = .microStep ∧ s' = microStep s) ∨
        (s.call = .instructionCycle ∧ s.t = 0 ∧ s' = microSteps nSteps s)) := by
  obtain ⟨hr, h⟩ := whenRunning_next h
  refine ⟨hr, ?_⟩
  cases hc : s.call with
  | microStep =>
    rw [hc] at h
    exact .inl ⟨rfl, by simpa [runFetched_eq hr, eq_comm] using h⟩
  | instructionCycle =>
    rw [hc] at h
    obtain ⟨-, ht, hs⟩ := execInstr_next (h : execInstr _ _ s = _)
    exact .inr ⟨rfl, ht, by rw [hs, instructionByte_fields]⟩

/-- A property that every micro-step of a running engine keeps, every step of the machine keeps. -/
theorem step_keeps {P : State → Prop} (hm : ∀ s, s.status = .running → P s → P (microStep s)) (hp : P s)
    (h : step s = .next s') : P s' := by
  obtain ⟨hr, ⟨-, rfl⟩ | ⟨-, -, rfl⟩⟩ := step_next_cases h
  · exact hm s hr hp
  · clear h hr
    generalize nSteps = n
    induction n generalizing s with
    | zero => exact hp
    | succ n ih =>
      unfold microSteps
      split
      · exact ih (hm s ‹_› hp)
      · exact hp

end Machine
end Sys2Proof
end

