-- ==== Sys2Proof/Laws/Lines.lean ====
section
/-! SUPPORT. Small laws of the sets of lines, of the operand forms in arithmetic, and what the driving lines do in the
terms of the claims (`Lines.drivers`, `busOf`). -/

namespace Sys2Proof

theorem Line.mem_all (L : Line) : L ∈ Line.all := by cases L <;> decide

/-- Two sets of lines that assert the same lines are equal. -/
theorem Lines.ext_has {l k : Lines} (h : ∀ L, l.has L = k.has L) : l = k := by
  cases l
  cases k
  simp only [Lines.mk.injEq]
  exact ⟨h .hlt, h .mi, h .ri, h .ro, h .io, h .ii, h .ai, h .ao, h .eo, h .su, h .bi, h .oi, h .ce, h .co, h .j, h .fi⟩

@[simp] theorem Lines.has_assert_self (l : Lines) (L : Line) : (l.assert L).has L = true := by cases L <;> rfl

@[simp] theorem Lines.has_clear_self (l : Lines) (L : Line) : (l.clear L).has L = false := by cases L <;> rfl

theorem has_linesOf (lb : LineBit) (cw : ControlWord) (L : Line) :
    (linesOf lb cw).has L = cw.getLsbD (lb.pos L).val := by cases L <;> rfl

theorem Lines.drivers_eq (l : Lines) : l.drivers =
    (if l.ro then [.ro] else []) ++ (if l.io then [.io] else []) ++ (if l.ao then [.ao] else []) ++
      (if l.eo then [.eo] else []) ++ (if l.co then [.co] else []) := by
  obtain ⟨_, _, _, ro, io, _, _, ao, eo, _, _, _, _, co, _, _⟩ := l
  cases ro <;> cases io <;> cases ao <;> cases eo <;> cases co <;> rfl

theorem Lines.consumers_eq (l : Lines) : l.consumers =
    (if l.mi then [.mi] else []) ++ (if l.ri then [.ri] else []) ++ (if l.ii then [.ii] else []) ++
      (if l.ai then [.ai] else []) ++ (if l.bi then [.bi] else []) ++ (if l.oi then [.oi] else []) ++
      (if l.j then [.j] else []) := by
  obtain ⟨_, mi, ri, _, _, ii, ai, _, _, _, bi, oi, _, _, j, _⟩ := l
  cases mi <;> cases ri <;> cases ii <;> cases ai <;> cases bi <;> cases oi <;> cases j <;> rfl

namespace Machine

/-! ### Operand forms in arithmetic -/

theorem lowNibble_eq (v : Byte) : lowNibble v = BitVec.ofNat 4 v.toNat := by
  apply BitVec.eq_of_toNat_eq
  simp [lowNibble, BitVec.extractLsb'_toNat]

theorem zeroExtend8_immediateOf (i : Byte) : zeroExtend8 (immediateOf i) = BitVec.ofNat 8 (i.toNat % 16) := by
  apply BitVec.eq_of_toNat_eq
  simp [zeroExtend8, immediateOf, BitVec.extractLsb'_toNat]

theorem zeroExtend8_eq (c : Nibble) : zeroExtend8 c = BitVec.ofNat 8 c.toNat := by
  apply BitVec.eq_of_toNat_eq
  simp [zeroExtend8]

theorem aluResult_eq (subtract : Bool) (a b : Byte) :
    aluResult subtract a b =
      if subtract then BitVec.ofInt 8 ((a.toNat : Int) - b.toNat) else BitVec.ofNat 8 (a.toNat + b.toNat) := by
  apply BitVec.eq_of_toNat_eq
  cases subtract
  · simp [aluResult]
  · simp [aluResult, BitVec.toNat_sub, BitVec.toNat_ofInt]
    omega

/-! ### The driving lines -/

theorem busOf_eq_none (l : Lines) (s : State) : busOf l s = none ↔ l.drivers = [] := by
  obtain ⟨_, _, _, ro, io, _, _, ao, eo, _, _, _, _, co, _, _⟩ := l
  cases ro <;> cases io <;> cases ao <;> cases eo <;> cases co <;> simp [Lines.drivers_eq, busOf, drivenBy]

/-- Everything the five drivers do: two or more contend, else the bus holds the one driver's value or stays empty. -/
theorem driveLines_eq (l : Lines) (s : State) :
    driveLines l { bus := none, st := s } =
      if 2 ≤ l.drivers.length then .error .busContention else .ok { bus := busOf l s, st := s } := by
  obtain ⟨_, _, _, ro, io, _, _, ao, eo, _, _, _, _, co, _, _⟩ := l
  cases ro <;> cases io <;> cases ao <;> cases eo <;> cases co <;>
    simp [driveLines, lineRo, lineIo, lineAo, lineEo, lineCo, drive, bind, Except.bind, Lines.drivers_eq, busOf,
      drivenBy, aluResult_eq]
  · exact zeroExtend8_eq _ ▸ by simp
  · exact zeroExtend8_immediateOf _

end Machine
end Sys2Proof
end

