-- ==== Sys2Proof/Laws/Memory.lean ====
section
/-! SUPPORT. Every memory operation keeps the canonical form `Memory.wf`. -/

namespace Sys2Proof.Machine

theorem wf_nil : Memory.wf [] := by simp [Memory.wf]

/-- A canonical memory is a legal first cell below a canonical rest. -/
theorem wf_cons {k : Nat} {v : Byte} {rest : Memory} :
    Memory.wf ((k, v) :: rest) ↔
      (∀ cell ∈ rest, k < cell.1) ∧ k < memSize ∧ v ≠ unwrittenCell ∧ Memory.wf rest := by
  simp only [Memory.wf, List.map_cons, List.pairwise_cons, List.forall_mem_cons, List.forall_mem_map]
  tauto

/-- Every cell of an updated memory is the changed one or an old one. -/
theorem mem_update {mem : Memory} {addr : Nat} {v : Byte} {cell : Host.Cell}
    (h : cell ∈ Memory.update mem addr v) : cell = (addr, v) ∨ cell ∈ mem := by
  induction mem with
  | nil => unfold Memory.update Memory.cons at h; split at h <;> simp_all
  | cons head rest ih =>
    obtain ⟨k, w⟩ := head
    unfold Memory.update Memory.cons at h
    split at h
    · simp only [List.mem_cons] at h ⊢
      exact h.elim (fun e => .inr (.inl e)) fun e => (ih e).imp_right .inr
    · repeat' split at h
      all_goals simp_all
      all_goals tauto

theorem wf_update {mem : Memory} {addr : Nat} (v : Byte) (ha : addr < memSize) (h : Memory.wf mem) :
    Memory.wf (Memory.update mem addr v) := by
  induction mem with
  | nil =>
    unfold Memory.update Memory.cons
    split
    · exact wf_nil
    · exact wf_cons.2 ⟨by simp, ha, ‹_›, wf_nil⟩
  | cons head rest ih =>
    obtain ⟨k, w⟩ := head
    obtain ⟨hlt, hk, hw, hrest⟩ := wf_cons.1 h
    unfold Memory.update Memory.cons
    split
    · next hka =>
      refine wf_cons.2 ⟨fun cell hc => ?_, hk, hw, ih hrest⟩
      rcases mem_update hc with rfl | hc
      · exact hka
      · exact hlt _ hc
    · next hka =>
      repeat' split
      · exact hrest
      · next he _ => exact wf_cons.2 ⟨by simpa [← he] using hlt, ha, ‹_›, hrest⟩
      · exact h
      · refine wf_cons.2 ⟨fun cell hc => ?_, ha, ‹_›, h⟩
        rcases List.mem_cons.1 hc with rfl | hc
        · simp only; omega
        · have := hlt _ hc; omega

theorem wf_memWrite {mem : Memory} (addr : Nibble) (v : Byte) (h : Memory.wf mem) :
    Memory.wf (memWrite mem addr v) :=
  wf_update v addr.isLt h

theorem wf_preload {bytes : List Byte} {addr : Nat} {mem : Memory} (hb : addr + bytes.length ≤ memSize)
    (h : Memory.wf mem) : Memory.wf (preload bytes addr mem) := by
  induction bytes generalizing addr mem with
  | nil => exact h
  | cons v rest ih =>
    simp only [List.length_cons] at hb
    exact ih (by omega) (wf_update v (by omega) h)

end Sys2Proof.Machine
end

