-- ==== Sys2Proof/Laws/PerInstr.lean ====
section
/-! SUPPORT. Facts for all instructions, one lemma for each constructor: a well-formed control-word instruction is the one
the decoder names from the lines it asserts. -/

namespace Sys2Proof.Laws

theorem clear_assert {others : Lines} {L : Line} (h : others.has L = false) : (others.assert L).clear L = others := by
  cases others
  cases L <;> simp_all [Lines.has, Lines.assert, Lines.clear]

theorem instrOfLines_assert {others : Lines} {L : Line} (h : others.besides L = true) :
    instrOfLines (others.assert L) = .ok (.ofLine L others) := by
  simp only [Lines.besides, Bool.and_eq_true, Bool.not_eq_true', beq_iff_eq] at h
  simp only [instrOfLines, h.2, clear_assert h.1]

/-- The instruction is the one the decoder names from its lines. -/
def NamedByItsLines.Statement (i : Instr) : Prop :=
  i.wf = true → ∀ l, i.lines? = some l → instrOfLines l = .ok i

theorem NamedByItsLines.hlt (others : Lines) : NamedByItsLines.Statement (.hlt others) := by
  rintro h _ ⟨⟩
  exact instrOfLines_assert h

theorem NamedByItsLines.mi (others : Lines) : NamedByItsLines.Statement (.mi others) := by
  rintro h _ ⟨⟩
  exact instrOfLines_assert h

theorem NamedByItsLines.ri (others : Lines) : NamedByItsLines.Statement (.ri others) := by
  rintro h _ ⟨⟩
  exact instrOfLines_assert h

theorem NamedByItsLines.ro (others : Lines) : NamedByItsLines.Statement (.ro others) := by
  rintro h _ ⟨⟩
  exact instrOfLines_assert h

theorem NamedByItsLines.io (others : Lines) : NamedByItsLines.Statement (.io others) := by
  rintro h _ ⟨⟩
  exact instrOfLines_assert h

theorem NamedByItsLines.ii (others : Lines) : NamedByItsLines.Statement (.ii others) := by
  rintro h _ ⟨⟩
  exact instrOfLines_assert h

theorem NamedByItsLines.ai (others : Lines) : NamedByItsLines.Statement (.ai others) := by
  rintro h _ ⟨⟩
  exact instrOfLines_assert h

theorem NamedByItsLines.ao (others : Lines) : NamedByItsLines.Statement (.ao others) := by
  rintro h _ ⟨⟩
  exact instrOfLines_assert h

theorem NamedByItsLines.eo (others : Lines) : NamedByItsLines.Statement (.eo others) := by
  rintro h _ ⟨⟩
  exact instrOfLines_assert h

theorem NamedByItsLines.su (others : Lines) : NamedByItsLines.Statement (.su others) := by
  rintro h _ ⟨⟩
  exact instrOfLines_assert h

theorem NamedByItsLines.bi (others : Lines) : NamedByItsLines.Statement (.bi others) := by
  rintro h _ ⟨⟩
  exact instrOfLines_assert h

theorem NamedByItsLines.oi (others : Lines) : NamedByItsLines.Statement (.oi others) := by
  rintro h _ ⟨⟩
  exact instrOfLines_assert h

theorem NamedByItsLines.ce (others : Lines) : NamedByItsLines.Statement (.ce others) := by
  rintro h _ ⟨⟩
  exact instrOfLines_assert h

theorem NamedByItsLines.co (others : Lines) : NamedByItsLines.Statement (.co others) := by
  rintro h _ ⟨⟩
  exact instrOfLines_assert h

theorem NamedByItsLines.j (others : Lines) : NamedByItsLines.Statement (.j others) := by
  rintro h _ ⟨⟩
  exact instrOfLines_assert h

theorem NamedByItsLines.fi (others : Lines) : NamedByItsLines.Statement (.fi others) := by
  rintro h _ ⟨⟩
  exact instrOfLines_assert h

theorem NamedByItsLines.instr (opcode imm : Nibble) : NamedByItsLines.Statement (.instr opcode imm) := by
  rintro _ _ ⟨⟩

end Sys2Proof.Laws
end

