-- ==== Sys2Proof/Tests/Slice0.lean ====
section
/-! SUPPORT. Tests on fixed values and the witnesses of the statements' hypotheses. Expected results are those of
95_test_vectors.md (V, S and P numbers, sections 3.1, 3.2 and 3.5) or of the rule named. -/

namespace Sys2Proof.Tests

open Sys2Proof Sys2Proof.Machine

/-! ### Helpers -/

/-- A configuration without tables, for one instruction at a time. -/
def blank : Config where
  tableLo := []
  tableHi := []
  invertMask := 0
  lineBit := LineBit.default
  lineTerminator := [0x0A]

/-- The vectors' start: "the rest is reset". -/
def base : State := State.create blank

/-- The instruction a 16-bit word decodes to is run on a state. -/
def runWord (w : Nat) (s : State) : Option State :=
  match decodeTableWord 16 w with
  | none => none
  | some i =>
    match exec i s with
    | .next s' => some s'
    | _ => none

/-- Every opcode's eight entries alike, at the flags' value 0. -/
def conventionalConfig (rest : List (Byte × Byte)) : Config :=
  { blank with
    tableLo := (List.replicate 16 ([0x04, 0x08] ++ rest.map Prod.fst)).flatten
    tableHi := (List.replicate 16 ([0x40, 0x14] ++ rest.map Prod.snd)).flatten }

/-- Opcode 0 of the fixture T1, for every opcode. -/
def t1 : State :=
  { State.create (conventionalConfig [(0x00, 0x0A), (0x10, 0x01), (0, 0), (0, 0), (0, 0), (0, 0)]) with mem := [(0, 7)] }

/-- A table whose every word asserts no line, on a running engine. -/
def idle : State :=
  State.create { blank with tableLo := List.replicate 128 0, tableHi := List.replicate 128 0 }

/-! ### Decoding: each row's word, written from its encoding (30_encoding.md R72, R86, R74) -/

-- 1000 0000 0000 0000
theorem test_decode_hlt : decodeTableWord 16 0x8000 = some (.hlt {}) := by decide
-- 0100 0000 0000 0100: MI with CO
theorem test_decode_mi : decodeTableWord 16 0x4004 = some (.mi { co := true }) := by decide
-- 0010 0001 0000 0000: RI with AO
theorem test_decode_ri : decodeTableWord 16 0x2100 = some (.ri { ao := true }) := by decide
-- 0001 0000 0000 0000
theorem test_decode_ro : decodeTableWord 16 0x1000 = some (.ro {}) := by decide
-- 0000 1000 0000 0000
theorem test_decode_io : decodeTableWord 16 0x0800 = some (.io {}) := by decide
-- 0001 0100 0000 1000: II with RO and CE
theorem test_decode_ii : decodeTableWord 16 0x1408 = some (.ii { ro := true, ce := true }) := by decide
-- 0000 0010 1100 0001: AI with EO, SU and FI
theorem test_decode_ai : decodeTableWord 16 0x02C1 = some (.ai { eo := true, su := true, fi := true }) := by decide
-- 0000 0001 0000 0000
theorem test_decode_ao : decodeTableWord 16 0x0100 = some (.ao {}) := by decide
-- 0000 0000 1100 0000: EO with SU
theorem test_decode_eo : decodeTableWord 16 0x00C0 = some (.eo { su := true }) := by decide
-- 0000 0000 0100 0000
theorem test_decode_su : decodeTableWord 16 0x0040 = some (.su {}) := by decide
-- 0001 0000 0010 0000: BI with RO
theorem test_decode_bi : decodeTableWord 16 0x1020 = some (.bi { ro := true }) := by decide
-- 0000 0001 0001 0000: OI with AO
theorem test_decode_oi : decodeTableWord 16 0x0110 = some (.oi { ao := true }) := by decide
-- 0000 0000 0000 1000
theorem test_decode_ce : decodeTableWord 16 0x0008 = some (.ce {}) := by decide
-- 0000 0000 0000 0100
theorem test_decode_co : decodeTableWord 16 0x0004 = some (.co {}) := by decide
-- 0000 1000 0000 1010: J with IO and CE
theorem test_decode_j : decodeTableWord 16 0x080A = some (.j { io := true, ce := true }) := by decide
-- 0000 0000 0000 0001
theorem test_decode_fi : decodeTableWord 16 0x0001 = some (.fi {}) := by decide
-- 0101 0011: opcode 5, immediate 3
theorem test_decode_instr : decodeTableWord 8 0x53 = some (.instr 5 3) := by decide
-- R79: no line; R83: no other length
theorem test_decode_rejects :
    decode LineBit.default [0, 0] = .error .noLineAsserted ∧ decode LineBit.default [] = .error .wrongLength ∧
    decode LineBit.default [0, 0, 0] = .error .wrongLength ∧ decodeTableWord 16 0x10000 = none := by decide
-- Section 2, table T1 of 95_test_vectors.md: CO|MI is 0x4004 and LDI 5 of table T2 is 0x55, the low byte first (R77)
theorem test_encode : encode LineBit.default (.mi { co := true }) = [0x04, 0x40] ∧
    encode LineBit.default (.instr 5 5) = [0x55] := by decide

/-! ### What the checks of well-formedness refuse -/

theorem test_wf_refuses_own_line_again : Instr.wf (.ro { ro := true }) = false := by decide
theorem test_wf_refuses_earlier_lead : Instr.wf (.ro { ai := true }) = false ∧ Instr.wf (.fi { hlt := true }) = false := by
  decide
theorem test_lineBit_wf_refuses_shared_bit : LineBit.wf { LineBit.default with fi := 15 } = false := by decide
theorem test_memory_wf_refuses :
    ¬ Memory.wf [(3, 1), (2, 1)] ∧ ¬ Memory.wf [(2, 1), (2, 1)] ∧ ¬ Memory.wf [(16, 1)] ∧ ¬ Memory.wf [(2, 0)] := by
  decide
theorem test_boot_refuses_17_bytes : (boot blank (List.replicate 17 1)).isNone = true := by decide

/-! ### One micro-step per vector -/

-- V52: registers unchanged
theorem test_hlt_with_ai : runWord 0x8200 { base with a := 7 } =
    some { base with a := 7, status := .stopped .haltAndCatchFire } := rfl
-- V53: not BusContention, C stays
theorem test_hlt_before_contention : runWord 0x810C { base with a := 7, c := 3 } =
    some { base with a := 7, c := 3, status := .stopped .haltAndCatchFire } := rfl
-- V29: low four bits kept
theorem test_mi_masks : runWord 0x4100 { base with a := 0xFF } = some { base with a := 0xFF, m := 15, t := 1 } := rfl
-- V66
theorem test_mi_floats : runWord 0x4000 { base with m := 5 } =
    some { base with m := 5, status := .stopped .floatingBus } := rfl
-- V32: MI before RI
theorem test_ri_after_mi : runWord 0x6100 { base with a := 0x3C, m := 2 } =
    some { base with a := 0x3C, m := 12, mem := [(12, 0x3C)], t := 1 } := rfl
-- V33: the cell's own value stored back
theorem test_ri_same_cell : runWord 0x3000 { base with m := 4, mem := [(4, 0x66)] } =
    some { base with m := 4, mem := [(4, 0x66)], t := 1 } := rfl
-- V1
theorem test_ro_reads : runWord 0x1200 { base with m := 14, mem := [(14, 0x1C)] } =
    some { base with m := 14, mem := [(14, 0x1C)], a := 0x1C, t := 1 } := rfl
-- V2: read at the old M
theorem test_ro_old_m : runWord 0x5000 { base with m := 2, mem := [(2, 0x3F)] } =
    some { base with m := 15, mem := [(2, 0x3F)], t := 1 } := rfl
-- V4: zero-extended low nibble
theorem test_io_nibble : runWord 0x0A00 { base with i := 0xFF } = some { base with i := 0xFF, a := 0x0F, t := 1 } := rfl
-- V55
theorem test_io_contends : runWord 0x1800 { base with a := 7 } =
    some { base with a := 7, status := .stopped .busContention } := rfl
-- V35
theorem test_ii_fetch : runWord 0x1408 { base with mem := [(0, 0x53)] } =
    some { base with mem := [(0, 0x53)], i := 0x53, c := 1, t := 1 } := rfl
-- V6
theorem test_ii_from_io : runWord 0x0C00 { base with i := 0xA7 } = some { base with i := 0x07, t := 1 } := rfl
-- V5: overwritten by 0
theorem test_ai_zero : runWord 0x0A00 { base with a := 0x99, i := 0xF0 } = some { base with a := 0, i := 0xF0, t := 1 } := rfl
-- V70: A and C stay
theorem test_ai_floats : runWord 0x0208 { base with a := 7, c := 3 } =
    some { base with a := 7, c := 3, status := .stopped .floatingBus } := rfl
-- V49: a driver without a consumer
theorem test_ao_alone : runWord 0x0100 { base with a := 0x55 } = some { base with a := 0x55, t := 1 } := rfl
-- V63
theorem test_ao_contends : runWord 0x030C { base with a := 7, c := 3 } =
    some { base with a := 7, c := 3, status := .stopped .busContention } := rfl
-- V14: 200 + 100 wraps to 44
theorem test_eo_add_wraps : runWord 0x0280 { base with a := 0xC8, b := 0x64 } =
    some { base with a := 0x2C, b := 0x64, t := 1 } := rfl
-- V19: 16 - 240 wraps to 32
theorem test_eo_sub_wraps : runWord 0x02C0 { base with a := 0x10, b := 0xF0 } =
    some { base with a := 0x20, b := 0xF0, t := 1 } := rfl
-- V46
theorem test_su_alone : runWord 0x0040 { base with a := 1, b := 2 } = some { base with a := 1, b := 2, t := 1 } := rfl
-- V74: SU is not a driver
theorem test_su_floats : runWord 0x0240 { base with a := 7 } =
    some { base with a := 7, status := .stopped .floatingBus } := rfl
-- V20
theorem test_bi_sum : runWord 0x00A0 { base with a := 3, b := 4 } = some { base with a := 3, b := 7, t := 1 } := rfl
-- V37: two consumers
theorem test_bi_with_ai : runWord 0x0A20 { base with i := 0x49 } = some { base with i := 0x49, a := 9, b := 9, t := 1 } := rfl
-- V10
theorem test_oi_emits : runWord 0x0110 { base with a := 0xFF } = some { base with a := 0xFF, out := [255], t := 1 } := rfl
-- V72
theorem test_oi_floats : runWord 0x0010 { base with a := 7 } =
    some { base with a := 7, status := .stopped .floatingBus } := rfl
-- V47
theorem test_ce_counts : runWord 0x0049 { base with c := 7 } = some { base with c := 8, t := 1 } := rfl
-- V44
theorem test_ce_wraps : runWord 0x0008 { base with c := 15 } = some { base with c := 0, t := 1 } := rfl
-- V24: the old C on the bus
theorem test_co_old_c : runWord 0x400C { base with c := 15 } = some { base with m := 15, c := 0, t := 1 } := rfl
-- V25
theorem test_co_extends : runWord 0x0204 { base with a := 0x77, c := 9 } = some { base with a := 9, c := 9, t := 1 } := rfl
-- V39: the bus modulo 16
theorem test_j_reduces : runWord 0x0102 { base with a := 0x1F } = some { base with a := 0x1F, c := 15, t := 1 } := rfl
-- V41: J, then CE
theorem test_j_before_ce : runWord 0x080A { base with i := 0x62, c := 3 } = some { base with i := 0x62, c := 3, t := 1 } := rfl
-- V21: no flag changes
theorem test_fi_no_flag : runWord 0x0281 { base with a := 0xFF, b := 1 } = some { base with a := 0, b := 1, t := 1 } := rfl
-- V45, and from T = 7 back to T = 0 (section 3.6)
theorem test_fi_alone : runWord 0x0001 { base with a := 1, b := 2, t := 7 } = some { base with a := 1, b := 2 } := rfl
-- S1: one `step()` from the pre-loaded reset state
theorem test_instr_s1 : exec (.instr 0 0) t1 =
    .next { t1 with a := 7, i := 7, c := 1, out := [7] } := rfl
-- R213, R193: a table of two entries runs out at micro-step 2
theorem test_instr_short_table :
    exec (.instr 0 0) (State.create { blank with tableLo := [0x04, 0x08], tableHi := [0x40, 0x14] }) =
      .next { State.create { blank with tableLo := [0x04, 0x08], tableHi := [0x40, 0x14] } with
        c := 1, t := 2, status := .stopped (.indexOutOfRange 2) } := rfl

/-! ### Index, combination, inversion, sink and fetch -/

-- Section 3.1
theorem test_index : tableIndex false false 0x0F 0 = 0 ∧ tableIndex false false 0x53 2 = 42 ∧
    tableIndex false true 0x75 2 = 314 ∧ tableIndex true false 0x00 0 = 512 ∧ tableIndex true true 0xFF 7 = 895 := by
  decide
-- Section 3.2
theorem test_combination : rawWord 0x34 0x12 = 0x1234 ∧ effectiveWord 0x00FF 0x1234 = 0x12CB ∧
    effectiveWord 0x7FF7 (rawWord 0xFF 0xFF) = 0x8008 ∧ effectiveWord 0xFFFF (rawWord 0xFB 0xBF) = 0x4004 := by decide
-- Section 3.5: "out 0\nout 255\n"
theorem test_sink_text : sinkText { base with out := [0, 255] } =
    [0x6F, 0x75, 0x74, 0x20, 0x30, 0x0A, 0x6F, 0x75, 0x74, 0x20, 0x32, 0x35, 0x35, 0x0A] := by decide
-- R253: the output port shows what the micro-step emits
theorem test_ports_show_emission : (ports { t1 with a := 9, t := 3 }).outValue = some 9 ∧
    (ports { t1 with a := 9, t := 3 }).rom = some (0x10, 0x01) := by decide +kernel
-- R253, R210: nothing at the output port where the fetch raises; the numbers of the stopped engine
theorem test_ports_without_emission : (ports base).outValue = none ∧ (ports base).rom = none ∧
    (ports { t1 with t := 3, status := .stopped .busContention }).outValue = none ∧
    (ports { t1 with t := 3, status := .stopped .busContention }).status = 3 := by decide +kernel
-- Log entry 16: the placed word is what the next step runs, and it halts
theorem test_withFetchWord_hlt : step (State.reset.withFetchWord 16 0x8000) =
    .next { State.reset.withFetchWord 16 0x8000 with status := .stopped .haltAndCatchFire } := rfl
-- Log entry 16: the cycle of a placed byte leaves the byte in I, back at T = 0
theorem test_withFetchWord_instr : step (State.reset.withFetchWord 8 0x53) = .next (State.reset.withFetchWord 8 0x53) := rfl

/-! ### The hypotheses of each statement are met -/

theorem witness_BootPreloadsMemoryOnly :
    (List.replicate 16 (1 : Byte)).length ≤ 16 ∧ 16 < (List.replicate 17 (1 : Byte)).length := by decide

theorem witness_MemoryReturnsLastWrite : Memory.wf [(0, 1), (15, 255)] ∧ (0 : Nibble) ≠ 15 := by decide

theorem witness_CanonicalMemoriesWithEqualCellsAreEqual :
    Memory.wf [(0, 1), (15, 255)] ∧ Memory.wf (memWrite [(15, 255)] 0 1) ∧
    ∀ addr : Nibble, memRead [(0, 1), (15, 255)] addr = memRead (memWrite [(15, 255)] 0 1) addr := by decide

theorem witness_DecodeOfEncodeIsTheInstruction : LineBit.default.wf = true ∧ Instr.wf (.fi {}) = true ∧
    Instr.wf (.mi { ri := true, ro := true, fi := true }) = true ∧ Instr.wf (.instr 15 0) = true := by decide

theorem witness_EncodeOfDecodeIsTheBytes : LineBit.default.wf = true ∧
    decode LineBit.default [0x01, 0x00] = .ok (.fi {}) ∧ decode LineBit.default [0xFF] = .ok (.instr 15 15) := by decide

theorem witness_OnlyTheEmptyWordIsNoInstruction : LineBit.default.wf = true := by decide

theorem witness_TableReadIsBoundsChecked :
    (895 : TableIndex).toNat < (List.replicate 896 (0 : Byte)).length ∧
    (List.replicate 895 (0 : Byte)).length ≤ (895 : TableIndex).toNat := by decide +kernel

theorem witness_FetchReadsFlagsOpcodeAndStepOnly :
    { base with i := 0x50 }.i.toNat / 16 = { base with i := 0x5F, a := 9 }.i.toNat / 16 ∧
    { base with i := 0x50 }.t = { base with i := 0x5F, a := 9 }.t := by decide

theorem witness_LongTablesNeverRunOut :
    (idle.zf = false ∧ idle.cf = false ∧ 128 ≤ idle.cfg.tableLo.length ∧ 128 ≤ idle.cfg.tableHi.length) ∧
    (∃ s', step idle = .next s') ∧
    896 ≤ (State.reset.withFetchWord 16 0x0001).cfg.tableLo.length ∧
    896 ≤ (State.reset.withFetchWord 16 0x0001).cfg.tableHi.length ∧
    ∃ s', step (State.reset.withFetchWord 16 0x0001) = .next s' :=
  ⟨by decide +kernel, ⟨_, rfl⟩, by decide +kernel, by decide +kernel, ⟨_, rfl⟩⟩

theorem witness_HaltLineStopsBeforeEverything : base.status = .running ∧
    (Instr.ai { hlt := true }).lines? = some { hlt := true, ai := true } ∧
    ({ hlt := true, ai := true } : Lines).hlt = true := by decide

theorem witness_RoDrivesTheAddressedCell : base.status = .running ∧
    ({ ai := true } : Lines).hlt = false ∧ (({ ai := true } : Lines).assert .ro).drivers = [.ro] ∧
    ({ io := true } : Lines).hlt = false ∧ (({ io := true } : Lines).assert .ro).drivers ≠ [.ro] := by decide

theorem witness_IoDrivesTheImmediate : base.status = .running ∧
    ({ ai := true } : Lines).hlt = false ∧ (({ ai := true } : Lines).assert .io).drivers = [.io] ∧
    ({ ro := true } : Lines).hlt = false ∧ (({ ro := true } : Lines).assert .io).drivers ≠ [.io] := by decide

theorem witness_AoDrivesTheAccumulator : base.status = .running ∧
    ({ bi := true } : Lines).hlt = false ∧ (({ bi := true } : Lines).assert .ao).drivers = [.ao] ∧
    ({ co := true } : Lines).hlt = false ∧ (({ co := true } : Lines).assert .ao).drivers ≠ [.ao] := by decide

theorem witness_EoDrivesTheSumOrDifference : base.status = .running ∧
    ({ ai := true } : Lines).hlt = false ∧ (({ ai := true } : Lines).assert .eo).drivers = [.eo] ∧
    ({ ai := true } : Lines).su = false ∧
    ({ su := true } : Lines).hlt = false ∧ (({ su := true } : Lines).assert .eo).drivers = [.eo] ∧
    ({ su := true } : Lines).su = true ∧
    ({ co := true } : Lines).hlt = false ∧ (({ co := true } : Lines).assert .eo).drivers ≠ [.eo] := by decide

theorem witness_CoDrivesTheCounter : base.status = .running ∧
    ({ mi := true, ce := true } : Lines).hlt = false ∧ (({ mi := true, ce := true } : Lines).assert .co).drivers = [.co] ∧
    ({ ao := true } : Lines).hlt = false ∧ (({ ao := true } : Lines).assert .co).drivers ≠ [.co] := by decide

theorem witness_SuOnlyModifiesEo : base.status = .running ∧
    (Instr.ce { su := true }).lines? = some { ce := true, su := true } ∧ (Instr.ce {}).lines? = some { ce := true } ∧
    ({ ce := true, su := true } : Lines).eo = false ∧
    ({ ce := true, su := true } : Lines).clear .su = ({ ce := true } : Lines).clear .su ∧
    (({ eo := true, ai := true } : Lines).assert .su).wordClass = .wellFormed ∧
    ({ eo := true, ai := true } : Lines).eo = true ∧ (({} : Lines).assert .su).wordClass = .wellFormed := by decide

/-- The hypotheses that the statements about a consuming line share: one driver and its value, or no driver. -/
abbrev ConsumerHypotheses (L : Line) : Prop :=
    base.status = .running ∧ ({ ao := true } : Lines).hlt = false ∧
    (({ ao := true } : Lines).assert L).drivers.length = 1 ∧
    busOf (({ ao := true } : Lines).assert L) { base with a := 0xFF } = some 0xFF ∧
    ({} : Lines).hlt = false ∧ (({} : Lines).assert L).drivers = []

theorem witness_consumer (L : Line) (hL : L ∈ [Line.mi, .ri, .ii, .ai, .bi, .oi, .j]) : ConsumerHypotheses L := by
  revert L; decide

theorem witness_MiLoadsTheAddressRegister : ConsumerHypotheses .mi := witness_consumer .mi (by decide)
theorem witness_RiStoresTheBus : ConsumerHypotheses .ri ∧ Memory.wf base.mem ∧
    (0 : Nibble) ≠ storeAddress { ao := true, mi := true } 0xFF base ∧
    (15 : Nibble) ≠ storeAddress { ao := true } 0xFF base := ⟨witness_consumer .ri (by decide), by decide⟩
theorem witness_IiLoadsTheInstructionRegister : ConsumerHypotheses .ii := witness_consumer .ii (by decide)
theorem witness_AiLoadsTheAccumulator : ConsumerHypotheses .ai := witness_consumer .ai (by decide)
theorem witness_BiLoadsTheSecondOperand : ConsumerHypotheses .bi := witness_consumer .bi (by decide)
theorem witness_OiEmitsTheBus : ConsumerHypotheses .oi := witness_consumer .oi (by decide)
theorem witness_JumpLoadsTheCounter : ConsumerHypotheses .j := witness_consumer .j (by decide)

theorem witness_CeCountsModulo16 : base.status = .running ∧
    (({} : Lines).assert .ce).wordClass = .wellFormed ∧ ({} : Lines).j = false ∧
    (({ ai := true } : Lines).assert .ce).wordClass ≠ .wellFormed := by decide

theorem witness_FiChangesNothing : base.status = .running ∧
    (Instr.ce { fi := true }).lines? = some { ce := true, fi := true } ∧ (Instr.ce {}).lines? = some { ce := true } ∧
    ({ ce := true, fi := true } : Lines).clear .fi = ({ ce := true } : Lines).clear .fi ∧
    (({ eo := true, ai := true } : Lines).assert .fi).wordClass = .wellFormed := by decide

theorem witness_WellFormedWordsArePerformed : base.status = .running ∧
    (Instr.mi { co := true }).lines? = some { mi := true, co := true } ∧
    ({ mi := true, co := true } : Lines).wordClass = .wellFormed := by decide

theorem witness_WordClassDecidesTheCondition : base.status = .running ∧
    (Instr.hlt { ai := true }).lines? = some { hlt := true, ai := true } ∧
    ({ hlt := true, ai := true } : Lines).wordClass = .halt ∧
    (Instr.ai { ao := true, co := true }).lines? = some { ai := true, ao := true, co := true } ∧
    ({ ai := true, ao := true, co := true } : Lines).wordClass = .contention ∧
    (Instr.ai {}).lines? = some { ai := true } ∧ ({ ai := true } : Lines).wordClass = .floating ∧
    (Instr.ai { ao := true }).lines? = some { ai := true, ao := true } ∧
    ({ ai := true, ao := true } : Lines).wordClass = .wellFormed := by decide

theorem witness_ControlWordIsAllOrNothing : (Instr.ai {}).lines? = some { ai := true } ∧
    exec (.ai {}) base = .next { base with status := .stopped .floatingBus } ∧
    (Instr.bi { ao := true }).lines? = some { bi := true, ao := true } ∧
    exec (.bi { ao := true }) { base with a := 0x2A } = .next { base with a := 0x2A, b := 0x2A, t := 1 } :=
  ⟨rfl, rfl, rfl, rfl⟩

theorem witness_ControlWordFrame : (Instr.ri { ao := true }).lines? = some { ri := true, ao := true } ∧
    exec (.ri { ao := true }) { base with a := 5, m := 15 } = .next { base with a := 5, m := 15, mem := [(15, 5)], t := 1 } ∧
    busOf { ri := true, ao := true } { base with a := 5, m := 15 } = some 5 ∧
    (14 : Nibble) ≠ storeAddress { ri := true, ao := true } 5 { base with a := 5, m := 15 } ∧
    busOf { ri := true } base = none := ⟨rfl, rfl, rfl, by decide, rfl⟩

theorem witness_InstructionCycleFrame : (∃ s', exec (.instr 15 15) idle = .next s') ∧
    ∀ idx : TableIndex, idx.toNat < 128 → linesAt idle.cfg idx = some {} := by
  refine ⟨⟨_, rfl⟩, fun idx h => ?_⟩
  have : tableRead idle.cfg idx = .ok (0, 0) := by
    have e : (List.replicate 128 (0 : Byte))[idx.toNat]? = some 0 := List.getElem?_replicate_of_lt h
    simp only [tableRead, idle, State.create, e]
  rw [linesAt, this]; rfl

/-- An engine whose opcode 0 stores A to cell 3 in its first micro-step (AO|RI, 0x2100). -/
def storesFirst : State :=
  { State.create { blank with tableLo := List.replicate 8 0, tableHi := 0x21 :: List.replicate 7 0 } with a := 5, m := 3 }

theorem witness_CycleStoresOnlyWhereItsWordsStore :
    exec (.instr 0 0) storesFirst = .next { storesFirst with mem := [(3, 5)] } ∧
    ∀ k < 8, ∀ u, microSteps k { storesFirst with i := instructionByte 0 0 } = u → u.status = .running →
      ∀ l v, linesAt u.cfg u.index = some l → l.wordClass = .wellFormed → l.ri = true → busOf l u = some v →
        (4 : Nibble) ≠ storeAddress l v u := by
  have h : ∀ k : Fin 8, (fun u : State => (linesAt u.cfg u.index).all fun l => (busOf l u).all fun v =>
      decide ((4 : Nibble) ≠ storeAddress l v u)) (microSteps k { storesFirst with i := instructionByte 0 0 }) = true := by
    decide +kernel
  refine ⟨rfl, fun k hk u hu _ l v hl _ _ hb => ?_⟩
  have := h ⟨k, hk⟩
  simp only [hu, hl, hb, Option.all_some, decide_eq_true_eq] at this
  exact this

theorem witness_StoreIsSeenByTheNextFetch : (Instr.ri { ao := true }).lines? = some { ri := true, ao := true } ∧
    ({ ri := true, ao := true } : Lines).wordClass = .wellFormed ∧
    busOf { ri := true, ao := true } { base with a := 0xF0, m := 3 } = some 0xF0 ∧ Memory.wf base.mem ∧
    exec (.ri { ao := true }) { base with a := 0xF0, m := 3 } =
      .next { base with a := 0xF0, m := 3, mem := [(3, 0xF0)], t := 1 } := ⟨rfl, rfl, rfl, by decide, rfl⟩

theorem witness_StepRunsTheDecodedInstruction : t1.status = .running ∧ t1.call = .microStep ∧
    fetchWord t1 = .ok 0x4004 ∧ decodeControlWord t1.cfg.lineBit 0x4004 = .ok (.mi { co := true }) ∧
    fetchWord { t1 with t := 4 } = .ok 0 ∧ decodeControlWord t1.cfg.lineBit 0 = .error .noLineAsserted ∧
    fetchWord base = .error (.indexOutOfRange 0) ∧
    { t1 with call := .instructionCycle }.call = .instructionCycle := by decide +kernel

theorem witness_PlacedWordRunsNext : State.reset.cfg.lineBit.wf = true ∧
    decodeTableWord 16 0x0001 = some (.fi {}) ∧ decodeTableWord 8 0xFF = some (.instr 15 15) := by decide

theorem witness_StoppedEngineHasNoTransition :
    State.final { base with status := .stopped .haltAndCatchFire } ∧
    State.faulted { base with status := .stopped .floatingBus } ∧
    State.faulted { base with status := .stopped (.indexOutOfRange 895) } :=
  ⟨rfl, ⟨.floatingBus, by decide, rfl⟩, ⟨.indexOutOfRange 895, by decide, rfl⟩⟩

theorem witness_MidCycleInstructionIsRefused :
    { base with t := 1 }.status = .running ∧ { base with t := 1 }.t ≠ 0 ∧ { base with t := 7 }.t ≠ 0 := by decide

theorem witness_StepKeepsTheInvariant : State.Inv { idle with mem := [(15, 1)] } ∧ (∃ s', step idle = .next s') :=
  ⟨⟨by decide, rfl, rfl⟩, ⟨_, rfl⟩⟩

theorem witness_NoStepWritesFlagsOrConfiguration :
    step { idle with mem := [(15, 1)] } = .next { idle with mem := [(15, 1)], t := 1 } ∧
    step { idle with zf := true } = .next { idle with zf := true, status := .stopped (.indexOutOfRange 512) } := ⟨rfl, rfl⟩

theorem witness_InvariantKeepsTheIndexBelow128 : State.Inv { idle with i := 0xFF, t := 7 } :=
  ⟨by decide, rfl, rfl⟩

theorem witness_ConditionsIgnoreTheData :
    t1.status = .running ∧ t1.call = .microStep ∧
    { t1 with a := 9, i := 0x0F, mem := [] }.i.toNat / 16 = t1.i.toNat / 16 ∧
    { t1 with a := 9, i := 0x0F, mem := [] }.t = t1.t ∧ { t1 with a := 9, i := 0x0F, mem := [] } ≠ t1 := by
  decide +kernel

theorem witness_PortsShowIndexAndEmission : t1.status = .running ∧
    t1.index.toNat < t1.cfg.tableLo.length ∧ t1.index.toNat < t1.cfg.tableHi.length ∧
    linesAt t1.cfg { t1 with t := 3 }.index = some { ao := true, oi := true } ∧
    ({ ao := true, oi := true } : Lines).wordClass = .wellFormed ∧
    linesAt { t1.cfg with invertMask := 0x8000 } { t1 with t := 3 }.index = some { hlt := true, ao := true, oi := true } ∧
    ({ hlt := true, ao := true, oi := true } : Lines).wordClass ≠ .wellFormed ∧
    base.cfg.tableLo.length ≤ base.index.toNat ∧ linesAt base.cfg base.index = none ∧
    { base with status := .stopped .haltAndCatchFire }.status ≠ .running ∧
    { base with status := .stopped (.indexOutOfRange 895) }.status = .stopped (.indexOutOfRange 895) := by decide +kernel

theorem witness_CycleIsEightMicroSteps : t1.status = .running ∧ t1.t = 0 ∧ t1.call = .microStep ∧
    { t1 with call := .instructionCycle }.status = .running ∧ { t1 with call := .instructionCycle }.t = 0 ∧
    { t1 with call := .instructionCycle }.call = .instructionCycle := by decide

theorem witness_CycleReturnsToItsBoundary : t1.status = .running ∧ t1.t = 0 ∧
    (match exec (.instr 0 0) t1 with | .next s' => decide (s'.status = .running) | _ => false) = true := by
  decide +kernel

/-- An engine whose opcode 0 halts in its last micro-step. -/
def haltsLast : State :=
  State.create { blank with tableLo := List.replicate 8 0, tableHi := [0, 0, 0, 0, 0, 0, 0, 0x80] }

theorem witness_FailureInsideACycleKeepsEarlierSteps : haltsLast.status = .running ∧ haltsLast.t = 0 ∧
    haltsLast.call = .microStep ∧
    exec (decodeInstructionByte haltsLast.i) haltsLast =
      .next { haltsLast with t := 7, status := .stopped .haltAndCatchFire } ∧
    step { haltsLast with call := .instructionCycle } =
      .next { haltsLast with call := .instructionCycle, t := 7, status := .stopped .haltAndCatchFire } :=
  ⟨rfl, rfl, rfl, rfl, rfl⟩

/-- The table of the next two witnesses meets the convention at every opcode. -/
theorem conventional_table : ∀ i : Byte,
    linesAt t1.cfg (tableIndex false false i 0) = some { co := true, mi := true } ∧
    linesAt t1.cfg (tableIndex false false i 1) = some { ro := true, ii := true, ce := true } := by decide +kernel

theorem witness_FetchConventionLoadsTheInstruction : t1.status = .running ∧ t1.t = 0 ∧ t1.call = .microStep ∧
    fetchConvention t1.cfg t1.zf t1.cf := ⟨rfl, rfl, rfl, conventional_table⟩

theorem witness_ConventionalCycleCountsOnce :
    { t1 with call := .instructionCycle }.status = .running ∧ fetchConvention t1.cfg t1.zf t1.cf ∧
    (∀ (i : Byte) (t : MicroNumber) (l : Lines), 2 ≤ t.toNat →
      linesAt t1.cfg (tableIndex t1.zf t1.cf i t) = some l → l.ii = false ∧ l.j = false ∧ l.ce = false) ∧
    step { t1 with call := .instructionCycle } =
      .next { t1 with call := .instructionCycle, a := 7, i := 7, c := 1, out := [7] } := by
  have h : ∀ (i : Byte) (t : MicroNumber), 2 ≤ t.toNat →
      (linesAt t1.cfg (tableIndex t1.zf t1.cf i t)).all (fun l => !l.ii && !l.j && !l.ce) = true := by decide +kernel
  refine ⟨rfl, conventional_table, fun i t l ht hl => ?_, rfl⟩
  have := h i t ht
  rw [hl] at this
  simpa [and_assoc] using this

end Sys2Proof.Tests
end

namespace Sys2Proof

/-- R103: the two bytes do not overlap, so the word is their concatenation, the high byte first. -/
theorem rawWord_eq_append (low high : Byte) : rawWord low high = high ++ low := by
  rw [rawWord, BitVec.append_def, BitVec.shiftLeftZeroExtend_eq, BitVec.setWidth'_eq]

/-- R103: the word in arithmetic; the shift contributes a multiple of 256 and the low byte stays below it. -/
theorem rawWord_toNat (low high : Byte) : (rawWord low high).toNat = high.toNat * 256 + low.toNat := by
  calc (rawWord low high).toNat
      = high.toNat <<< 8 ||| low.toNat := by rw [rawWord_eq_append, BitVec.toNat_append]
    _ = high.toNat <<< 8 + low.toNat := (Nat.shiftLeft_add_eq_or_of_lt low.isLt high.toNat).symm
    _ = high.toNat * 256 + low.toNat := by rw [Nat.shiftLeft_eq]

/-- Settles O9: the value is `rawWord_toNat`, the shift-or form is the definition, and the rule's two worked examples
are evaluated. -/
theorem rawWordCombinesTwoBytes : Obligations.RawWordCombinesTwoBytes :=
  ⟨fun low high => ⟨rawWord_toNat low high, rfl⟩, by decide, by decide⟩

end Sys2Proof

namespace Sys2Proof.Machine

variable {l : Lines} {s : State}

/-- R124: the halt line is the first item of the apply order, so the items after it never run. -/
theorem applyWord_of_hlt (h : l.hlt = true) (s : State) : applyWord l s = .error .haltAndCatchFire := by
  have hraise : lineHlt l { bus := none, st := s } = .error .haltAndCatchFire := if_pos h
  rw [applyWord, hraise]
  rfl

/-- R124, R190: nothing is performed of a word with HLT and `T` does not advance. -/
theorem performed_of_hlt (h : l.hlt = true) (s : State) : performed l s = raise .haltAndCatchFire s := by
  rw [performed, applyWord_of_hlt h]

/-- R124: whichever row a word with HLT is an instruction of, it only raises the condition. -/
theorem exec_of_hlt {i : Instr} (hi : i.lines? = some l) (h : l.hlt = true) (hr : s.status = .running) :
    exec i s = .next (raise .haltAndCatchFire s) := by
  rw [exec_controlWord hi, performWord_running hr, performed_of_hlt h]

/-- Settles O16: the default position is evaluated, and HLT's own row is the case of `exec_of_hlt` whose lines hold HLT
by construction. -/
theorem haltLineStopsBeforeEverything : Obligations.HaltLineStopsBeforeEverything :=
  ⟨rfl, fun others _ hr => exec_of_hlt (ofLine_lines .hlt others) (Lines.has_assert_self others .hlt) hr,
    fun _ _ _ hi h hr => exec_of_hlt hi h hr⟩

end Sys2Proof.Machine

namespace Sys2Proof

/-- The test of `consumeLines_empty` is whether the word asserts a consumer. -/
theorem Lines.consumers_eq_nil (l : Lines) :
    l.consumers = [] ↔ (l.mi || l.ri || l.ii || l.ai || l.bi || l.oi || l.j) = false := by
  simp [Lines.consumers, Lines.has, and_assoc]

namespace Machine

variable {l : Lines} {s : State}

/-! ### What performing a control word does -/

/-- R125: the drivers of the word contend, so no consumer runs. -/
theorem applyWord_of_contention (hh : l.hlt = false) (hd : 2 ≤ l.drivers.length) (s : State) :
    applyWord l s = .error .busContention := by
  simp [applyWord, lineHlt, hh, driveLines_eq, hd, bind, Except.bind]

/-- R126: the first consumer of the word finds the bus empty. -/
theorem applyWord_of_floating (hh : l.hlt = false) (hd : l.drivers = []) (hc : l.consumers ≠ []) (s : State) :
    applyWord l s = .error .floatingBus := by
  rw [Ne, Lines.consumers_eq_nil, Bool.not_eq_false] at hc
  have hdrive : driveLines l { bus := none, st := s } = .ok { bus := none, st := s } := by
    rw [driveLines_eq, if_neg (by simp [hd]), (busOf_eq_none l s).2 hd]
  have hconsume : consumeLines l { bus := none, st := s } = .error .floatingBus := by
    rw [consumeLines_empty, if_pos hc]
  simp [applyWord, lineHlt, hh, hdrive, hconsume, bind, Except.bind]

/-- R123: the apply order of a word that no condition stops leaves the rules' `settled`, save that `T` has not
advanced. -/
theorem applyWord_of_wellFormed (hh : l.hlt = false) (hd : l.drivers.length < 2)
    (hf : l.drivers = [] → l.consumers = []) (s : State) :
    applyWord l s = .ok { settled l (busOf l s) s with t := s.t } := by
  have hdrive : driveLines l { bus := none, st := s } = .ok { bus := busOf l s, st := s } := by
    rw [driveLines_eq, if_neg (by omega)]
  cases hb : busOf l s with
  | none =>
    have hc := (Lines.consumers_eq_nil l).1 (hf ((busOf_eq_none l s).1 hb))
    cases hce : l.ce <;>
      simp [applyWord, lineHlt, hh, hdrive, hb, consumeLines_empty, hc, lineCe, hce, lineFi, flagsUpdate, settled,
        BitVec.ofNat_add, bind, Except.bind, pure, Except.pure]
  | some v =>
    cases hce : l.ce <;>
      simp [applyWord, lineHlt, hh, hdrive, hb, consumeLines_driven, lineCe, hce, lineFi, flagsUpdate, settled,
        storeAddress, lowNibble_eq, BitVec.ofNat_add, bind, Except.bind, pure, Except.pure]

/-- R78, R190: the class of the word alone decides whether performing it raises and which condition; a well-formed word
leaves the settled state. -/
theorem performed_eq (l : Lines) (s : State) :
    performed l s =
      match l.wordClass with
      | .halt => raise .haltAndCatchFire s
      | .contention => raise .busContention s
      | .floating => raise .floatingBus s
      | .wellFormed => settled l (busOf l s) s := by
  unfold Lines.wordClass
  split_ifs with hh hd hf
  · exact performed_of_hlt hh s
  all_goals rw [Bool.not_eq_true] at hh
  · rw [performed, applyWord_of_contention hh hd]
  · obtain ⟨hnone, hc⟩ := hf
    rw [performed, applyWord_of_floating hh hnone hc]
  · rw [performed, applyWord_of_wellFormed hh (by omega) (by simpa using hf)]
    simp [advance, settled, BitVec.ofNat_add]

/-! ### What a micro-step does -/

theorem settled_status (l : Lines) (bus : Option Byte) (s : State) : (settled l bus s).status = s.status := by
  cases bus <;> rfl

/-- The settled state takes nothing from the host's request and keeps it. -/
theorem settled_withCall (l : Lines) (bus : Option Byte) (s : State) (c : HostCall) :
    settled l bus { s with call := c } = { settled l bus s with call := c } := by
  cases bus <;> rfl

theorem busOf_withCall (l : Lines) (s : State) (c : HostCall) : busOf l { s with call := c } = busOf l s := rfl

theorem performed_withCall (l : Lines) (s : State) (c : HostCall) :
    performed l { s with call := c } = { performed l s with call := c } := by
  rw [performed_eq, performed_eq]
  cases l.wordClass with
  | halt | contention | floating => rfl
  | wellFormed => exact settled_withCall l _ s c

/-- A micro-step never looks at the host's request and keeps it. -/
theorem microStep_withCall (s : State) (c : HostCall) :
    microStep { s with call := c } = { microStep s with call := c } := by
  have hfetch : fetchWord { s with call := c } = fetchWord s := rfl
  unfold microStep
  rw [hfetch]
  cases fetchWord s with
  | ok cw => exact performed_withCall _ s c
  | error x => rfl

/-- R190: a micro-step keeps `STATUS` and advances `T`, or raises a condition and changes nothing else. -/
theorem microStep_advances_or_raises (s : State) :
    ((microStep s).status = s.status ∧ (microStep s).t = s.t + 1) ∨ ∃ x, microStep s = raise x s := by
  obtain ⟨cw, -, h⟩ | ⟨x, -, h⟩ := microStep_cases s
  · rw [performed_eq] at h
    rw [h]
    cases (linesOf s.cfg.lineBit cw).wordClass with
    | halt | contention | floating => exact .inr ⟨_, rfl⟩
    | wellFormed => exact .inl ⟨settled_status _ _ s, by simp [settled, BitVec.ofNat_add]⟩
  · exact .inr ⟨x, h⟩

/-- A running engine asked for one micro-step takes that of R190. -/
theorem step_withCall_microStep (hr : s.status = .running) :
    step { s with call := .microStep } = .next { microStep s with call := .microStep } := by
  have hrun : { s with call := .microStep }.status = .running := hr
  rw [step, runNext, whenRunning_running hrun, ← microStep_withCall]
  exact runFetched_eq hrun

/-! ### The micro-steps of a cycle -/

variable {x : Condition} {n : Nat}

@[simp] theorem microSteps_zero : microSteps 0 s = s := rfl

theorem microSteps_succ (hr : s.status = .running) : microSteps (n + 1) s = microSteps n (microStep s) := if_pos hr

theorem microSteps_of_stopped (h : s.status ≠ .running) : microSteps n s = s := by
  cases n with
  | zero => rfl
  | succ n => exact if_neg h

theorem microSteps_withCall (n : Nat) (s : State) (c : HostCall) :
    microSteps n { s with call := c } = { microSteps n s with call := c } := by
  induction n generalizing s with
  | zero => rfl
  | succ n ih =>
    by_cases hr : s.status = .running
    · rw [microSteps_succ hr, microSteps_succ (s := { s with call := c }) hr, microStep_withCall, ih]
    · rw [microSteps_of_stopped hr, microSteps_of_stopped (s := { s with call := c }) hr]

/-- Asked for micro-steps only, the machine's steps are micro-steps. -/
theorem stepsWhileRunning_eq_microSteps (n : Nat) (s : State) :
    stepsWhileRunning n { s with call := .microStep } = { microSteps n s with call := .microStep } := by
  induction n generalizing s with
  | zero => rfl
  | succ n ih =>
    by_cases hr : s.status = .running
    · rw [stepsWhileRunning_succ (s := { s with call := .microStep }) hr (step_withCall_microStep hr), ih,
        microSteps_succ hr]
    · rw [stepsWhileRunning_stopped (s := { s with call := .microStep }) hr, microSteps_of_stopped hr]

/-- The claims' micro-steps of the machine, the request put back, are the model's `microSteps`. -/
theorem afterMicroSteps_eq_microSteps (n : Nat) (s : State) : afterMicroSteps n s = microSteps n s := by
  rw [afterMicroSteps, stepsWhileRunning_eq_microSteps]
  exact (microSteps_withCall n s s.call).symm

/-- R192: at a cycle boundary of a running engine the cycle of the byte in `I` is up to eight micro-steps. -/
theorem exec_decodeInstructionByte (hr : s.status = .running) (ht : s.t = 0) :
    exec (decodeInstructionByte s.i) s = .next (microSteps 8 s) := by
  rw [decodeInstructionByte, exec_instr, execInstr, whenRunning_running hr, if_pos ht, instructionByte_fields, nSteps]

/-- A step asked for as a whole cycle runs the byte in `I`. -/
theorem step_of_instructionCycle (hr : s.status = .running) (hc : s.call = .instructionCycle) :
    step s = exec (decodeInstructionByte s.i) s := by
  rw [step, runNext, whenRunning_running hr, hc]

/-- R193: micro-steps that end stopped ran without a raise up to a `k`-th one, which raised the condition, and the
engine stays as that raise left it. -/
theorem microSteps_stopped_at (hr : s.status = .running) (hx : (microSteps n s).status = .stopped x) :
    ∃ k < n, (microSteps k s).status = .running ∧ (microSteps k s).t = s.t + BitVec.ofNat 3 k ∧
      microStep (microSteps k s) = raise x (microSteps k s) ∧ microSteps n s = raise x (microSteps k s) := by
  induction n generalizing s with
  | zero => simp [hr] at hx
  | succ n ih =>
    rw [microSteps_succ hr] at hx ⊢
    obtain ⟨hs, ht⟩ | ⟨y, hy⟩ := microStep_advances_or_raises s
    · obtain ⟨k, hk, hrun, hT, hraise, hfinal⟩ := ih (hs.trans hr) hx
      refine ⟨k + 1, by omega, ?_⟩
      rw [microSteps_succ hr]
      refine ⟨hrun, ?_, hraise, hfinal⟩
      rw [hT, ht, BitVec.ofNat_add, add_assoc, add_comm 1]
      rfl
    · have hstay : microSteps n (raise y s) = raise y s := microSteps_of_stopped (by simp)
      rw [hy, hstay] at hx ⊢
      obtain rfl : y = x := by simpa using hx
      exact ⟨0, by omega, hr, by simp, hy, rfl⟩

/-- Settles O50: both the machine's micro-steps (`afterMicroSteps_eq_microSteps`) and the cycle
(`exec_decodeInstructionByte`) are the model's `microSteps`. -/
theorem cycleIsEightMicroSteps : Obligations.CycleIsEightMicroSteps := by
  intro s hr ht
  have hexec : exec (decodeInstructionByte s.i) s = .next (afterMicroSteps 8 s) := by
    rw [afterMicroSteps_eq_microSteps, exec_decodeInstructionByte hr ht]
  exact ⟨hexec, fun hc => (step_of_instructionCycle hr hc).trans hexec⟩

/-- Settles O52: the raising micro-step of `microSteps_stopped_at`, in the machine's own micro-steps. -/
theorem failureInsideACycleKeepsEarlierSteps : Obligations.FailureInsideACycleKeepsEarlierSteps := by
  intro s s' x hr ht hnext hx
  obtain ⟨hexec, hstep⟩ := cycleIsEightMicroSteps s hr ht
  have hs' : s' = afterMicroSteps 8 s := by
    obtain h | ⟨hc, h⟩ := hnext
    · rw [hexec] at h
      exact (Host.Outcome.next.inj h).symm
    · rw [hstep hc] at h
      exact (Host.Outcome.next.inj h).symm
  subst hs'
  simp only [afterMicroSteps_eq_microSteps] at hx ⊢
  obtain ⟨k, hk, hrun, hT, hraise, hfinal⟩ := microSteps_stopped_at hr hx
  refine ⟨k, hk, hrun, by rw [hT, ht, zero_add], ?_, hfinal⟩
  rw [step_withCall_microStep hrun, hraise]
  rfl

end Machine
end Sys2Proof

/-! ### Encodings: the word of a set of lines and the set of a word -/

namespace Sys2Proof

variable {lb : LineBit} {l : Lines} {i : Instr}

/-- R72: with no bit shared, a line is known by its position. -/
theorem LineBit.pos_injective (h : lb.wf = true) : Function.Injective lb.pos := fun L K he =>
  List.inj_on_of_nodup_map (of_decide_eq_true h) L.mem_all K.mem_all he

/-- R72: sixteen positions, none shared, are all the positions. -/
theorem LineBit.exists_pos (h : lb.wf = true) (p : Fin 16) : ∃ L, lb.pos L = p := by
  have hcard : (Line.all.map lb.pos).toFinset.card = Fintype.card (Fin 16) :=
    List.toFinset_card_of_nodup (of_decide_eq_true h)
  have hmem : p ∈ (Line.all.map lb.pos).toFinset := by simp [Finset.eq_univ_of_card _ hcard]
  obtain ⟨L, -, hL⟩ := List.mem_map.1 (List.mem_toFinset.1 hmem)
  exact ⟨L, hL⟩

/-- R73: each listed and asserted line sets the bit of its position, and no other bit. -/
theorem getLsbD_foldl_lines (lb : LineBit) (l : Lines) (Ls : List Line) (cw : ControlWord) (p : Fin 16) :
    (Ls.foldl (fun cw L => if l.has L then cw ||| (1#16 <<< (lb.pos L).val) else cw) cw).getLsbD p =
      (cw.getLsbD p || Ls.any fun L => l.has L && lb.pos L == p) := by
  have hbit (q : Fin 16) : (1#16 <<< q.val).getLsbD p = (q == p) := by
    revert p q; decide
  induction Ls generalizing cw with
  | nil => simp
  | cons L Ls ih =>
    rw [List.foldl_cons, ih]
    cases hL : l.has L with
    | false => simp [hL]
    | true => rw [if_pos rfl, BitVec.getLsbD_or, hbit, List.any_cons, hL, Bool.true_and, Bool.or_assoc]

/-- R73: the word of a set of lines has the bit of a line set exactly when the set asserts the line. -/
theorem getLsbD_wordOf (h : lb.wf = true) (l : Lines) (L : Line) :
    (wordOf lb l).getLsbD (lb.pos L) = l.has L := by
  rw [wordOf, getLsbD_foldl_lines, Bool.eq_iff_iff]
  simp only [BitVec.ofNat_eq_ofNat, BitVec.getLsbD_zero, Bool.false_or, List.any_eq_true, Bool.and_eq_true, beq_iff_eq]
  constructor
  · rintro ⟨K, -, hK, hpos⟩
    rwa [← LineBit.pos_injective h hpos]
  · exact fun hL => ⟨L, L.mem_all, hL, rfl⟩

theorem linesOf_wordOf (h : lb.wf = true) (l : Lines) : linesOf lb (wordOf lb l) = l :=
  Lines.ext_has fun L => by rw [has_linesOf, getLsbD_wordOf h]

theorem wordOf_linesOf (h : lb.wf = true) (cw : ControlWord) : wordOf lb (linesOf lb cw) = cw := by
  refine BitVec.eq_of_getLsbD_eq fun n hn => ?_
  obtain ⟨L, hL⟩ := LineBit.exists_pos h ⟨n, hn⟩
  have hn : n = lb.pos L := by rw [hL]
  rw [hn, getLsbD_wordOf h, has_linesOf]

/-! ### The two bytes of a word -/

theorem rawWord_bytes (cw : ControlWord) : rawWord (lowByte cw) (highByte cw) = cw := by
  rw [rawWord_eq_append, lowByte, highByte, BitVec.extractLsb'_append_extractLsb'_eq_extractLsb' (by omega)]
  simp

theorem lowByte_rawWord (low high : Byte) : lowByte (rawWord low high) = low := by
  rw [rawWord_eq_append, lowByte, BitVec.extractLsb'_append_eq_of_add_le (by omega)]
  simp

theorem highByte_rawWord (low high : Byte) : highByte (rawWord low high) = high := by
  rw [rawWord_eq_append, highByte, BitVec.extractLsb'_append_eq_of_le (by omega)]
  simp

theorem controlWordBytes_linesOf_rawWord (h : lb.wf = true) (low high : Byte) :
    controlWordBytes lb (linesOf lb (rawWord low high)) = [low, high] := by
  rw [controlWordBytes, wordOf_linesOf h, lowByte_rawWord, highByte_rawWord]

theorem decode_controlWordBytes (h : lb.wf = true) (l : Lines) :
    decode lb (controlWordBytes lb l) = instrOfLines l := by
  rw [controlWordBytes, decode, rawWord_bytes, decodeControlWord, linesOf_wordOf h]

theorem rawWord_eq_zero (low high : Byte) : rawWord low high = 0#16 ↔ low = 0#8 ∧ high = 0#8 := by
  simp only [← BitVec.toNat_inj, rawWord_toNat, BitVec.toNat_ofNat]
  omega

/-! ### Instructions and their lines -/

/-- R74: the fields of the byte put together are the fields it was put together from. -/
theorem decodeInstructionByte_instructionByte (opcode imm : Nibble) :
    decodeInstructionByte (instructionByte opcode imm) = .instr opcode imm := by
  rw [decodeInstructionByte, instructionByte, BitVec.extractLsb'_append_eq_of_le (by omega),
    BitVec.extractLsb'_append_eq_of_add_le (by omega), BitVec.extractLsb'_eq_self, BitVec.extractLsb'_eq_self]

/-- Every control-word instruction is encoded as the word of its lines. -/
theorem encode_of_lines (lb : LineBit) (h : i.lines? = some l) : encode lb i = controlWordBytes lb l := by
  cases i <;> cases h <;> rfl

theorem wf_ofLine (L : Line) (others : Lines) : (Instr.ofLine L others).wf = others.besides L := by
  cases L <;> rfl

/-- Every well-formed control-word instruction is the one named from its lines (log entry 12). -/
theorem instrOfLines_of_wf (hw : i.wf = true) (hl : i.lines? = some l) : instrOfLines l = .ok i := by
  cases i <;> cases hl <;> exact Laws.instrOfLines_assert hw

theorem instrOfLines_wf (h : instrOfLines l = .ok i) : i.wf = true := by
  unfold instrOfLines at h
  split at h
  · next L hL =>
    cases h
    simp [wf_ofLine, Lines.besides, assert_clear (List.find?_some hL), hL]
  · cases h

/-- Every line is in the lead order, so only the empty set names no instruction. -/
theorem Lines.lead?_eq_none : l.lead? = none ↔ l = Lines.empty := by
  have hmem (L : Line) : L ∈ Line.leadOrder := by cases L <;> decide
  simp only [Lines.lead?, List.find?_eq_none, Bool.not_eq_true]
  constructor
  · exact fun h => Lines.ext_has fun L => by rw [h L (hmem L)]; cases L <;> rfl
  · rintro rfl L -
    cases L <;> rfl

/-- The naming fails only for the word with no line, and then by that name (R79). -/
theorem instrOfLines_error {e : DecodeError} :
    instrOfLines l = .error e ↔ l = Lines.empty ∧ e = .noLineAsserted := by
  rw [← Lines.lead?_eq_none, instrOfLines]
  cases l.lead? <;> simp [eq_comm]

/-- R79, R84: the word with no line is the word 0. -/
theorem linesOf_eq_empty (h : lb.wf = true) (cw : ControlWord) : linesOf lb cw = Lines.empty ↔ cw = 0#16 := by
  have hzero : linesOf lb 0#16 = Lines.empty := by simp [linesOf, Lines.empty]
  constructor
  · intro hcw
    rw [← wordOf_linesOf h cw, hcw, ← hzero, wordOf_linesOf h]
  · rintro rfl
    exact hzero

/-- Settles O6: a control word's bytes give back its lines, and those name the instruction; an instruction byte gives
back its two fields. -/
theorem decodeOfEncodeIsTheInstruction : Obligations.DecodeOfEncodeIsTheInstruction := by
  intro lb i hlb hi
  cases hl : i.lines? with
  | some l => rw [encode_of_lines lb hl, decode_controlWordBytes hlb, instrOfLines_of_wf hi hl]
  | none =>
    cases i <;> cases hl
    next opcode imm => rw [encode, decode, decodeInstructionByte_instructionByte]

/-- Settles O7: one byte is its two fields put together, two bytes are the word of the lines they decode to, and no
other length decodes. -/
theorem encodeOfDecodeIsTheBytes : Obligations.EncodeOfDecodeIsTheBytes := by
  intro lb bytes i hlb h
  unfold decode at h
  split at h
  · next b =>
    cases h
    exact ⟨rfl, by rw [decodeInstructionByte, encode, instructionByte_fields]⟩
  · next low high =>
    exact ⟨instrOfLines_wf h, by
      rw [encode_of_lines lb (decodeControlWord_lines h), controlWordBytes_linesOf_rawWord hlb]⟩
  · cases h

/-- Settles O8: of two bytes only those of the word 0 assert no line, and the length is refused outside one and two. -/
theorem onlyTheEmptyWordIsNoInstruction : Obligations.OnlyTheEmptyWordIsNoInstruction := by
  intro lb bytes hlb
  unfold decode
  split
  · simp
  · next low high =>
    simp [decodeControlWord, instrOfLines_error, linesOf_eq_empty hlb, rawWord_eq_zero]
  · next h1 h2 =>
    have hlen : bytes.length ≠ 1 ∧ bytes.length ≠ 2 := by
      rw [Ne, Ne, List.length_eq_one_iff, List.length_eq_two]
      exact ⟨fun ⟨b, hb⟩ => h1 b hb, fun ⟨low, high, hb⟩ => h2 low high hb⟩
    refine ⟨?_, by simp [hlen]⟩
    constructor
    · simp
    · exact fun hb => absurd hb (h2 0 0)

end Sys2Proof

/-! ### Memory: reads after writes, and the canonical form -/

namespace Sys2Proof.Machine

variable {mem mem' : Memory} {addr other k : Nat} {v : Byte}

/-- R31, R53: an address that lists no cell reads as an unwritten one. -/
theorem lookup_of_forall_ne (h : ∀ cell ∈ mem, cell.1 ≠ addr) : Memory.lookup mem addr = unwrittenCell := by
  induction mem with
  | nil => rfl
  | cons head rest ih =>
    obtain ⟨hne, hrest⟩ := List.forall_mem_cons.1 h
    rw [Memory.lookup, if_neg hne, ih hrest]

/-- The value 0 is left out of the list exactly because an address that is not listed reads 0. -/
theorem lookup_cons_self (h : ∀ cell ∈ mem, cell.1 ≠ addr) : Memory.lookup (Memory.cons addr v mem) addr = v := by
  rw [Memory.cons]
  split
  · next hv => rw [lookup_of_forall_ne h, hv]
  · rw [Memory.lookup, if_pos rfl]

theorem lookup_cons_ne (h : other ≠ addr) :
    Memory.lookup (Memory.cons addr v mem) other = Memory.lookup mem other := by
  rw [Memory.cons]
  split
  · rfl
  · rw [Memory.lookup, if_neg h.symm]

/-- R53: a cell returns the value written to it. -/
theorem lookup_update_self (addr : Nat) (v : Byte) (h : Memory.wf mem) :
    Memory.lookup (Memory.update mem addr v) addr = v := by
  induction mem with
  | nil => exact lookup_cons_self (by simp)
  | cons head rest ih =>
    obtain ⟨k, w⟩ := head
    obtain ⟨hlt, -, -, hrest⟩ := wf_cons.1 h
    rw [Memory.update]
    split_ifs with hka heq
    · rw [Memory.lookup, if_neg (by omega), ih hrest]
    · exact lookup_cons_self fun cell hc => by have := hlt cell hc; omega
    · refine lookup_cons_self (List.forall_mem_cons.2 ⟨heq, fun cell hc => ?_⟩)
      have := hlt cell hc
      omega

/-- R53: a write changes no other cell, of any list of cells. -/
theorem lookup_update_ne (mem : Memory) (v : Byte) (h : other ≠ addr) :
    Memory.lookup (Memory.update mem addr v) other = Memory.lookup mem other := by
  induction mem with
  | nil => exact lookup_cons_ne h
  | cons head rest ih =>
    obtain ⟨k, w⟩ := head
    rw [Memory.update]
    split_ifs with hka heq
    · rw [Memory.lookup, Memory.lookup, ih]
    · rw [lookup_cons_ne h, Memory.lookup, if_neg (by omega)]
    · exact lookup_cons_ne h

theorem memRead_memWrite_self (addr : Nibble) (v : Byte) (h : Memory.wf mem) :
    memRead (memWrite mem addr v) addr = v :=
  lookup_update_self addr.toNat v h

theorem memRead_memWrite_ne {addr other : Nibble} (mem : Memory) (v : Byte) (h : other ≠ addr) :
    memRead (memWrite mem addr v) other = memRead mem other :=
  lookup_update_ne mem v fun he => h (BitVec.eq_of_toNat_eq he)

/-- Settles O3: the read of the written cell needs the canonical form, the other cells do not. -/
theorem memoryReturnsLastWrite : Obligations.MemoryReturnsLastWrite :=
  fun mem addr _ v h => ⟨memRead_memWrite_self addr v h, memRead_memWrite_ne mem v⟩

/-- Below the first cell of a canonical memory every cell is unwritten. -/
theorem lookup_of_lt {w : Byte} {rest : Memory} (h : Memory.wf ((k, w) :: rest)) (hlt : addr < k) :
    Memory.lookup ((k, w) :: rest) addr = unwrittenCell := by
  refine lookup_of_forall_ne (List.forall_mem_cons.2 ⟨by simp only; omega, fun cell hc => ?_⟩)
  have := (wf_cons.1 h).1 cell hc
  omega

/-- The first cell of a canonical memory does not read as an unwritten one. -/
theorem lookup_head_ne {w : Byte} {rest : Memory} (h : Memory.wf ((k, w) :: rest)) :
    Memory.lookup ((k, w) :: rest) k ≠ unwrittenCell := by
  obtain ⟨-, -, hw, -⟩ := wf_cons.1 h
  rwa [Memory.lookup, if_pos rfl]

/-- Canonical memories that read the same hold the same list: the first cells agree, since a cell listed in only one
of them would read 0 in the other. -/
theorem eq_of_lookup_eq (h : Memory.wf mem) (h' : Memory.wf mem')
    (heq : ∀ addr, Memory.lookup mem addr = Memory.lookup mem' addr) : mem = mem' := by
  induction mem generalizing mem' with
  | nil =>
    cases mem' with
    | nil => rfl
    | cons head rest => exact absurd (heq head.1).symm (lookup_head_ne h')
  | cons head rest ih =>
    obtain ⟨k, w⟩ := head
    cases mem' with
    | nil => exact absurd (heq k) (lookup_head_ne h)
    | cons head' rest' =>
      obtain ⟨k', w'⟩ := head'
      obtain ⟨hlt, -, -, hrest⟩ := wf_cons.1 h
      obtain ⟨hlt', -, -, hrest'⟩ := wf_cons.1 h'
      obtain hkk | rfl | hkk := lt_trichotomy k k'
      · exact absurd ((heq k).trans (lookup_of_lt h' hkk)) (lookup_head_ne h)
      · obtain rfl : w = w' := by simpa [Memory.lookup] using heq k
        refine congrArg _ (ih hrest hrest' fun addr => ?_)
        by_cases ha : addr = k
        · subst ha
          rw [lookup_of_forall_ne fun cell hc => (hlt cell hc).ne',
            lookup_of_forall_ne fun cell hc => (hlt' cell hc).ne']
        · simpa [Memory.lookup, Ne.symm ha] using heq addr
      · exact absurd ((heq k').symm.trans (lookup_of_lt h hkk)) (lookup_head_ne h')

/-- The cells of a canonical memory stand at the sixteen addresses. -/
theorem lookup_of_memSize_le (h : Memory.wf mem) (ha : memSize ≤ addr) : Memory.lookup mem addr = unwrittenCell :=
  lookup_of_forall_ne fun cell hc => by have := (h.2 cell hc).1; omega

/-- Settles O4: the addresses past the sixteen read 0 in both, so `eq_of_lookup_eq` applies. -/
theorem canonicalMemoriesWithEqualCellsAreEqual : Obligations.CanonicalMemoriesWithEqualCellsAreEqual := by
  intro mem mem' h h' heq
  refine eq_of_lookup_eq h h' fun addr => ?_
  by_cases ha : addr < memSize
  · have := heq (BitVec.ofNat 4 addr)
    rwa [memRead, memRead, BitVec.toNat_ofNat, Nat.mod_eq_of_lt (show addr < 2 ^ 4 from ha)] at this
  · rw [lookup_of_memSize_le h (by omega), lookup_of_memSize_le h' (by omega)]

/-- R241: the pre-load from address `k` on leaves byte `n` of the list at address `k + n` and the other cells alone. -/
theorem lookup_preload {bytes : List Byte} (h : Memory.wf mem) (hb : k + bytes.length ≤ memSize) :
    Memory.lookup (preload bytes k mem) addr =
      if k ≤ addr ∧ addr < k + bytes.length then bytes.getD (addr - k) 0 else Memory.lookup mem addr := by
  induction bytes generalizing k mem with
  | nil => simp [preload]
  | cons v rest ih =>
    simp only [List.length_cons] at hb ⊢
    rw [preload, ih (wf_update v (by omega) h) (by omega)]
    obtain hlt | rfl | hgt := lt_trichotomy addr k
    · rw [if_neg (by omega), if_neg (by omega), lookup_update_ne mem v (by omega)]
    · rw [if_neg (by omega), if_pos (by omega), lookup_update_self addr v h, Nat.sub_self, List.getD_cons_zero]
    · obtain ⟨d, rfl⟩ := Nat.exists_eq_add_of_lt hgt
      have hd : k + d + 1 - k = d + 1 := by omega
      have hd' : k + d + 1 - (k + 1) = d := by omega
      rw [hd, hd', List.getD_cons_succ, lookup_update_ne mem v (by omega)]
      exact if_congr (by omega) rfl rfl

/-- Settles O2: the pre-load starts on the empty memory, where every cell outside the list reads 0. -/
theorem bootPreloadsMemoryOnly : Obligations.BootPreloadsMemoryOnly := by
  refine fun cfg bytes => ⟨fun hb => ⟨_, if_pos hb, fun addr => ?_, rfl⟩, fun hb => if_neg (by simp [memSize, hb])⟩
  have hread := lookup_preload (k := 0) (addr := addr.toNat) wf_nil (by simpa [memSize] using hb)
  rw [memRead, hread]
  split_ifs with hlt
  · rfl
  · exact (List.getD_eq_default _ _ (by omega)).symm

end Sys2Proof.Machine

/-! ### The index, the table read and the fetch -/

namespace Sys2Proof.Machine

variable {zf cf zf' cf' : Bool} {i i' : Byte} {t t' : MicroNumber} {cfg : Config} {s s' : State} {idx : TableIndex}

theorem opcodeOf_toNat (i : Byte) : (opcodeOf i).toNat = i.toNat / 16 := by
  rw [opcodeOf, BitVec.extractLsb'_toNat, Nat.shiftRight_eq_div_pow]
  omega

/-- R100 in arithmetic: the fields stand at bits that do not overlap, so each is added. -/
theorem tableIndex_toNat (zf cf : Bool) (i : Byte) (t : MicroNumber) :
    (tableIndex zf cf i t).toNat = 512 * zf.toNat + 256 * cf.toNat + 8 * (i.toNat / 16) + t.toNat := by
  have hflags : (flagBit zf <<< 9 ||| flagBit cf <<< 8).toNat = (2 * zf.toNat + cf.toNat) <<< 8 := by
    cases zf <;> cases cf <;> rfl
  have hop : ((opcodeOf i).setWidth 10 <<< 3).toNat = (i.toNat / 16) <<< 3 := by
    rw [BitVec.toNat_shiftLeft, BitVec.toNat_setWidth, opcodeOf_toNat, Nat.shiftLeft_eq]
    omega
  have hlow : (i.toNat / 16) <<< 3 ||| t.toNat = 8 * (i.toNat / 16) + t.toNat := by
    rw [← Nat.shiftLeft_add_eq_or_of_lt t.isLt, Nat.shiftLeft_eq, Nat.mul_comm]
  have hlt : 8 * (i.toNat / 16) + t.toNat < 2 ^ 8 := by omega
  rw [tableIndex, BitVec.or_assoc, BitVec.toNat_or, hflags, BitVec.toNat_or, hop,
    BitVec.toNat_setWidth_of_le (by omega), hlow, ← Nat.shiftLeft_add_eq_or_of_lt hlt, Nat.shiftLeft_eq]
  omega

/-- Settles O11: the sum of the fields gives the bound, and bit 7 lies in none of them. -/
theorem indexHasItsFields : Obligations.IndexHasItsFields := by
  intro zf cf i t
  have hnat := tableIndex_toNat zf cf i t
  have hzf := zf.toNat_le
  have hcf := cf.toNat_le
  refine ⟨hnat, ?_, by omega⟩
  rw [BitVec.getLsbD, hnat, Nat.testBit_eq_decide_div_mod_eq, decide_eq_false_iff_not]
  omega

/-- Equal indices are equal sums of the fields, and each field lies below the next one's unit. -/
theorem tableIndex_inj : tableIndex zf cf i t = tableIndex zf' cf' i' t' ↔
    zf = zf' ∧ cf = cf' ∧ i.toNat / 16 = i'.toNat / 16 ∧ t = t' := by
  have hcf := cf.toNat_le
  have hcf' := cf'.toNat_le
  have hbool (f g : Bool) : f = g ↔ f.toNat = g.toNat := by cases f <;> cases g <;> decide
  rw [← BitVec.toNat_inj, tableIndex_toNat, tableIndex_toNat, hbool zf, hbool cf, ← BitVec.toNat_inj (x := t)]
  omega

/-- Settles O12: this is `tableIndex_inj`. -/
theorem indexIsInjective : Obligations.IndexIsInjective :=
  fun _ _ _ _ _ _ _ _ => tableIndex_inj

theorem tableRead_ok (hlo : idx.toNat < cfg.tableLo.length) (hhi : idx.toNat < cfg.tableHi.length) :
    tableRead cfg idx = .ok (cfg.tableLo[idx.toNat], cfg.tableHi[idx.toNat]) := by
  rw [tableRead, List.getElem?_eq_getElem hlo, List.getElem?_eq_getElem hhi]

theorem tableRead_error (h : cfg.tableLo.length ≤ idx.toNat ∨ cfg.tableHi.length ≤ idx.toNat) :
    tableRead cfg idx = .error (.indexOutOfRange idx) := by
  unfold tableRead
  split
  · next hlo hhi =>
    have hlo := (List.getElem?_eq_some_iff.1 hlo).1
    have hhi := (List.getElem?_eq_some_iff.1 hhi).1
    omega
  · rfl

/-- Settles O13: the two clauses are `tableRead_ok` and `tableRead_error`. -/
theorem tableReadIsBoundsChecked : Obligations.TableReadIsBoundsChecked :=
  fun _ _ => ⟨tableRead_ok, tableRead_error⟩

/-- The only condition of a table read is IndexOutOfRange, with the index that was read (R213). -/
theorem tableRead_error_eq {x : Condition} (h : tableRead cfg idx = .error x) :
    x = .indexOutOfRange idx ∧ (cfg.tableLo.length ≤ idx.toNat ∨ cfg.tableHi.length ≤ idx.toNat) := by
  by_cases hlen : cfg.tableLo.length ≤ idx.toNat ∨ cfg.tableHi.length ≤ idx.toNat
  · rw [tableRead_error hlen] at h
    exact ⟨(Except.error.inj h).symm, hlen⟩
  · rw [tableRead_ok (by omega) (by omega)] at h
    cases h

/-- R101, R105: the index reads the flags, the opcode and the micro-step number only. -/
theorem index_congr (hzf : s.zf = s'.zf) (hcf : s.cf = s'.cf) (hop : s.i.toNat / 16 = s'.i.toNat / 16)
    (ht : s.t = s'.t) : s.index = s'.index :=
  tableIndex_inj.2 ⟨hzf, hcf, hop, ht⟩

/-- Settles O14: the fetch reads the configuration at the index, and `index_congr` says what the index reads. -/
theorem fetchReadsFlagsOpcodeAndStepOnly : Obligations.FetchReadsFlagsOpcodeAndStepOnly := by
  intro s s' hcfg hzf hcf hop ht
  rw [fetchWord, fetchWord, hcfg, index_congr hzf hcf hop ht]

theorem index_toNat_of_inv (h : s.Inv) : s.index.toNat = 8 * (s.i.toNat / 16) + s.t.toNat := by
  obtain ⟨-, hzf, hcf⟩ := h
  rw [State.index, tableIndex_toNat, hzf, hcf]
  simp

/-- Settles O46: with clear flags only the opcode and `T` are left of the index. -/
theorem invariantKeepsTheIndexBelow128 : Obligations.InvariantKeepsTheIndexBelow128 := by
  intro s h
  have := index_toNat_of_inv h
  exact ⟨this, by omega⟩

/-! ### The word at the index, and the micro-step that performs it -/

variable {l : Lines}

theorem fetchWord_of_linesAt (h : linesAt s.cfg s.index = some l) :
    ∃ cw, fetchWord s = .ok cw ∧ linesOf s.cfg.lineBit cw = l := by
  unfold linesAt at h
  unfold fetchWord
  cases hr : tableRead s.cfg s.index with
  | ok bytes =>
    rw [hr] at h
    exact ⟨_, rfl, Option.some.inj h⟩
  | error x => simp [hr, Except.toOption] at h

theorem tableRead_of_linesAt_none (h : linesAt cfg idx = none) : tableRead cfg idx = .error (.indexOutOfRange idx) := by
  cases hr : tableRead cfg idx with
  | ok bytes => simp [linesAt, hr, Except.toOption] at h
  | error x => rw [(tableRead_error_eq hr).1]

/-- R190: the micro-step performs the word that the tables hold at the index. -/
theorem microStep_of_linesAt (h : linesAt s.cfg s.index = some l) : microStep s = performed l s := by
  obtain ⟨cw, hf, rfl⟩ := fetchWord_of_linesAt h
  rw [microStep, hf]

/-- R213: with no word at the index the micro-step raises. -/
theorem microStep_of_linesAt_none (h : linesAt s.cfg s.index = none) :
    microStep s = raise (.indexOutOfRange s.index) s := by
  rw [microStep, fetchWord, tableRead_of_linesAt_none h]

/-- Everything a micro-step can do: it raises a condition, or the word at the index is well-formed and leaves its
settled state. -/
theorem microStep_settles_or_raises (s : State) :
    (∃ l, linesAt s.cfg s.index = some l ∧ l.wordClass = .wellFormed ∧ microStep s = settled l (busOf l s) s) ∨
      ∃ x, microStep s = raise x s := by
  cases h : linesAt s.cfg s.index with
  | none => exact .inr ⟨_, microStep_of_linesAt_none h⟩
  | some l =>
    rw [microStep_of_linesAt h, performed_eq]
    cases hc : l.wordClass with
    | halt | contention | floating => exact .inr ⟨_, rfl⟩
    | wellFormed => exact .inl ⟨l, rfl, hc, rfl⟩

end Sys2Proof.Machine

/-! ### The classes of words -/

namespace Sys2Proof

variable {l : Lines} {L : Line} {others : Lines}

theorem Lines.wordClass_of_contention (hh : l.hlt = false) (hd : 2 ≤ l.drivers.length) :
    l.wordClass = .contention := by
  rw [Lines.wordClass, if_neg (by simp [hh]), if_pos hd]

theorem Lines.wordClass_of_floating (hh : l.hlt = false) (hd : l.drivers = []) (hc : l.consumers ≠ []) :
    l.wordClass = .floating := by
  rw [Lines.wordClass, if_neg (by simp [hh]), if_neg (by simp [hd]), if_pos ⟨hd, hc⟩]

/-- R78: what is left of the words is no HLT, at most one driver, and a driver if there is a consumer. -/
theorem Lines.wordClass_eq_wellFormed :
    l.wordClass = .wellFormed ↔ l.hlt = false ∧ l.drivers.length < 2 ∧ (l.drivers = [] → l.consumers = []) := by
  unfold Lines.wordClass
  split_ifs with hh hd hf
  · simp [hh]
  · exact iff_of_false (by decide) fun ⟨_, hlt, _⟩ => by omega
  · simp [hf]
  · rw [Bool.not_eq_true] at hh
    exact iff_of_true rfl ⟨hh, by omega, by simpa using hf⟩

theorem Lines.wordClass_of_one_driver (hh : l.hlt = false) (hd : l.drivers.length = 1) :
    l.wordClass = .wellFormed :=
  Lines.wordClass_eq_wellFormed.2 ⟨hh, by omega, fun h => by simp [h] at hd⟩

/-- An asserted driver is the only one, or the drivers contend. -/
theorem Lines.drivers_eq_singleton (h : L ∈ l.drivers) (hlen : l.drivers.length < 2) : l.drivers = [L] := by
  have hpos := List.length_pos_of_mem h
  obtain ⟨K, hK⟩ := List.length_eq_one_iff.1 (by omega : l.drivers.length = 1)
  rw [hK, List.mem_singleton] at h
  rw [hK, h]

theorem Lines.hlt_assert (others : Lines) (hL : L ≠ .hlt) : (others.assert L).hlt = others.hlt := by
  cases L with
  | hlt => exact absurd rfl hL
  | _ => rfl

theorem Lines.mem_drivers_assert (others : Lines) (hL : L ∈ [Line.ro, .io, .ao, .eo, .co]) :
    L ∈ (others.assert L).drivers :=
  List.mem_filter.2 ⟨hL, Lines.has_assert_self others L⟩

theorem Lines.mem_consumers_assert (others : Lines) (hL : L ∈ [Line.mi, .ri, .ii, .ai, .bi, .oi, .j]) :
    L ∈ (others.assert L).consumers :=
  List.mem_filter.2 ⟨hL, Lines.has_assert_self others L⟩

namespace Machine

variable {s s' : State} {i : Instr} {v : Byte} {bus : Option Byte}

/-! ### The settled state, field by field -/

@[simp] theorem settled_zf : (settled l bus s).zf = s.zf := by cases bus <;> rfl
@[simp] theorem settled_cf : (settled l bus s).cf = s.cf := by cases bus <;> rfl
@[simp] theorem settled_cfg : (settled l bus s).cfg = s.cfg := by cases bus <;> rfl
@[simp] theorem settled_call : (settled l bus s).call = s.call := by cases bus <;> rfl
@[simp] theorem settled_t : (settled l bus s).t = s.t + 1 := by simp [settled, BitVec.ofNat_add]

@[simp] theorem settled_some_m : (settled l (some v) s).m = if l.mi then BitVec.ofNat 4 v.toNat else s.m := rfl
@[simp] theorem settled_some_mem :
    (settled l (some v) s).mem = if l.ri then memWrite s.mem (storeAddress l v s) v else s.mem := rfl
@[simp] theorem settled_some_i : (settled l (some v) s).i = if l.ii then v else s.i := rfl
@[simp] theorem settled_some_a : (settled l (some v) s).a = if l.ai then v else s.a := rfl
@[simp] theorem settled_some_b : (settled l (some v) s).b = if l.bi then v else s.b := rfl
@[simp] theorem settled_some_out : (settled l (some v) s).out = if l.oi then s.out ++ [v] else s.out := rfl

@[simp] theorem settled_none_mem : (settled l none s).mem = s.mem := rfl
@[simp] theorem settled_none_out : (settled l none s).out = s.out := rfl

/-- R180: CE counts what J of the same word left in `C`. -/
theorem settled_some_c : (settled l (some v) s).c =
    (if l.j then BitVec.ofNat 4 v.toNat else s.c) + if l.ce then 1 else 0 := by
  cases hce : l.ce <;> simp [settled, hce, BitVec.ofNat_add]

theorem settled_c_of_not_j (hj : l.j = false) : (settled l bus s).c = s.c + if l.ce then 1 else 0 := by
  cases hce : l.ce <;> cases bus <;> simp [settled, hce, hj, BitVec.ofNat_add]

/-! A register whose line is not asserted stays, whatever the bus holds (R27). -/

theorem settled_a_of_not_ai (h : l.ai = false) : (settled l bus s).a = s.a := by cases bus <;> simp [settled, h]
theorem settled_b_of_not_bi (h : l.bi = false) : (settled l bus s).b = s.b := by cases bus <;> simp [settled, h]
theorem settled_i_of_not_ii (h : l.ii = false) : (settled l bus s).i = s.i := by cases bus <;> simp [settled, h]
theorem settled_m_of_not_mi (h : l.mi = false) : (settled l bus s).m = s.m := by cases bus <;> simp [settled, h]
theorem settled_out_of_not_oi (h : l.oi = false) : (settled l bus s).out = s.out := by cases bus <;> simp [settled, h]
theorem settled_mem_of_not_ri (h : l.ri = false) : (settled l bus s).mem = s.mem := by cases bus <;> simp [settled, h]
theorem settled_c_of_not_j_ce (hj : l.j = false) (hce : l.ce = false) : (settled l bus s).c = s.c := by
  simp [settled_c_of_not_j hj, hce]

/-- R33: a word appends at most its bus value to the trace. -/
theorem settled_out_append (l : Lines) (bus : Option Byte) (s : State) :
    ∃ new, (settled l bus s).out = s.out ++ new ∧ new.length ≤ 1 := by
  cases bus with
  | none => exact ⟨[], by simp⟩
  | some v => cases h : l.oi with
    | false => exact ⟨[], by simp [h]⟩
    | true => exact ⟨[v], by simp [h]⟩

/-- R161: no cell changes but the one at the store address. -/
theorem memRead_settled_ne {addr : Nibble} (h : addr ≠ storeAddress l v s) :
    memRead (settled l (some v) s).mem addr = memRead s.mem addr := by
  cases hri : l.ri with
  | false => simp [hri]
  | true => simp [hri, memRead_memWrite_ne s.mem v h]

theorem memRead_settled_storeAddress (hri : l.ri = true) (h : Memory.wf s.mem) :
    memRead (settled l (some v) s).mem (storeAddress l v s) = v := by
  simp [hri, memRead_memWrite_self _ v h]

theorem sinkText_settled_of_oi (h : l.oi = true) :
    sinkText (settled l (some v) s) = sinkText s ++ outputLine s.cfg.lineTerminator v := by
  simp [sinkText, h]

/-! ### What a control word does -/

/-- R127: a word is performed whole or raises, and its class says which. -/
theorem performed_settles_or_raises (l : Lines) (s : State) :
    (l.wordClass = .wellFormed ∧ performed l s = settled l (busOf l s) s) ∨
      (l.wordClass ≠ .wellFormed ∧ ∃ x, performed l s = raise x s) := by
  rw [performed_eq]
  cases hc : l.wordClass with
  | halt | contention | floating => exact .inr ⟨by simp, _, rfl⟩
  | wellFormed => exact .inl ⟨rfl, rfl⟩

theorem exec_running (hi : i.lines? = some l) (hr : s.status = .running) : exec i s = .next (performed l s) := by
  rw [exec_controlWord hi, performWord_running hr]

theorem exec_controlWord_next (hi : i.lines? = some l) (h : exec i s = .next s') :
    s.status = .running ∧ s' = performed l s :=
  performWord_next (exec_controlWord hi ▸ h)

/-- R123: a well-formed word of whatever row leaves its settled state. -/
theorem exec_of_wellFormed (hi : i.lines? = some l) (hr : s.status = .running) (hc : l.wordClass = .wellFormed) :
    exec i s = .next (settled l (busOf l s) s) := by
  rw [exec_running hi hr, performed_eq, hc]

/-- R125: contending drivers stop the engine and change nothing else. -/
theorem exec_of_contention (hi : i.lines? = some l) (hr : s.status = .running) (hc : l.wordClass = .contention) :
    exec i s = .next (raise .busContention s) := by
  rw [exec_running hi hr, performed_eq, hc]

/-- R126: an empty bus that is sensed stops the engine and changes nothing else. -/
theorem exec_of_floating (hi : i.lines? = some l) (hr : s.status = .running) (hc : l.wordClass = .floating) :
    exec i s = .next (raise .floatingBus s) := by
  rw [exec_running hi hr, performed_eq, hc]

/-- R124: the halt line stops the engine and changes nothing else. -/
theorem exec_of_halt (hi : i.lines? = some l) (hr : s.status = .running) (hc : l.wordClass = .halt) :
    exec i s = .next (raise .haltAndCatchFire s) := by
  rw [exec_running hi hr, performed_eq, hc]

/-- The bus of a word with one driver holds that driver's value. -/
theorem busOf_of_drivers (h : l.drivers = [L]) (s : State) : busOf l s = drivenBy l s L := by
  rw [busOf, h]
  rfl

/-- Settles O32: this is `exec_of_wellFormed`. -/
theorem wellFormedWordsArePerformed : Obligations.WellFormedWordsArePerformed :=
  fun _ _ _ hi hr hc => exec_of_wellFormed hi hr hc

/-- Settles O33: one lemma for each class; a settled state keeps `STATUS` and advances `T`. -/
theorem wordClassDecidesTheCondition : Obligations.WordClassDecidesTheCondition :=
  fun _ _ s hi hr => ⟨exec_of_halt hi hr, exec_of_contention hi hr, exec_of_floating hi hr, fun hc =>
    ⟨_, exec_of_wellFormed hi hr hc, (settled_status _ _ s).trans hr, settled_t⟩⟩

/-- Settles O34: the two cases of `performed_settles_or_raises`, told apart by `STATUS`. -/
theorem controlWordIsAllOrNothing : Obligations.ControlWordIsAllOrNothing := by
  intro i l s s' hi h
  obtain ⟨hr, rfl⟩ := exec_controlWord_next hi h
  obtain ⟨hc, hp⟩ | ⟨hc, y, hp⟩ := performed_settles_or_raises l s
  · rw [hp, settled_status, hr]
    exact ⟨nofun, fun _ => ⟨rfl, hc⟩⟩
  · rw [hp, raise_status]
    exact ⟨fun x hx => ⟨by cases hx; rfl, hc⟩, nofun⟩

/-- Settles O35: a word that raises changes `STATUS` only, and a settled state is framed field by field. -/
theorem controlWordFrame : Obligations.ControlWordFrame := by
  intro i l s s' hi h
  obtain ⟨hr, rfl⟩ := exec_controlWord_next hi h
  obtain ⟨-, hp⟩ | ⟨-, x, hp⟩ := performed_settles_or_raises l s
  · rw [hp]
    refine ⟨settled_a_of_not_ai, settled_b_of_not_bi, settled_i_of_not_ii, settled_m_of_not_mi, settled_c_of_not_j_ce,
      settled_zf, settled_cf, settled_cfg, settled_call, settled_out_of_not_oi, settled_out_append _ _ _,
      .inl ⟨settled_t, (settled_status _ _ s).trans hr⟩, ?_, ?_, ?_⟩
    · exact fun hri addr => by rw [settled_mem_of_not_ri hri]
    · exact fun hb addr => by rw [hb, settled_none_mem]
    · exact fun v hb addr hne => by rw [hb, memRead_settled_ne hne]
  · simp [hp]

/-! ### The driving lines -/

/-- R140 to R145: a driver alone in its word puts its value on the bus. -/
theorem exec_driver_alone (hL : L ∈ [Line.ro, .io, .ao, .eo, .co]) (hr : s.status = .running)
    (hh : others.hlt = false) (hd : (others.assert L).drivers = [L]) :
    exec (.ofLine L others) s = .next (settled (others.assert L) (drivenBy (others.assert L) s L) s) := by
  have hnohlt := (Lines.hlt_assert others (ne_of_mem_of_not_mem hL (by decide))).trans hh
  have hc := Lines.wordClass_of_one_driver hnohlt (by rw [hd]; rfl)
  rw [exec_of_wellFormed (ofLine_lines L others) hr hc, busOf_of_drivers hd]

/-- R125: a driver beside another one contends. -/
theorem exec_driver_contends (hL : L ∈ [Line.ro, .io, .ao, .eo, .co]) (hr : s.status = .running)
    (hh : others.hlt = false) (hd : (others.assert L).drivers ≠ [L]) :
    exec (.ofLine L others) s = .next (raise .busContention s) := by
  have hnohlt := (Lines.hlt_assert others (ne_of_mem_of_not_mem hL (by decide))).trans hh
  have hlen : 2 ≤ (others.assert L).drivers.length := by
    by_contra hlt
    exact hd (Lines.drivers_eq_singleton (Lines.mem_drivers_assert others hL) (by omega))
  exact exec_of_contention (ofLine_lines L others) hr (Lines.wordClass_of_contention hnohlt hlen)

/-- Settles O17: the value that RO drives is the cell at `M`. -/
theorem roDrivesTheAddressedCell : Obligations.RoDrivesTheAddressedCell :=
  ⟨rfl, fun _ _ hr hh =>
    ⟨exec_driver_alone (L := .ro) (by decide) hr hh, exec_driver_contends (L := .ro) (by decide) hr hh⟩⟩

/-- Settles O18: the value that IO drives is the low nibble of `I`. -/
theorem ioDrivesTheImmediate : Obligations.IoDrivesTheImmediate :=
  ⟨rfl, fun _ _ hr hh =>
    ⟨exec_driver_alone (L := .io) (by decide) hr hh, exec_driver_contends (L := .io) (by decide) hr hh⟩⟩

/-- Settles O19: the value that AO drives is `A`. -/
theorem aoDrivesTheAccumulator : Obligations.AoDrivesTheAccumulator :=
  ⟨rfl, fun _ _ hr hh =>
    ⟨exec_driver_alone (L := .ao) (by decide) hr hh, exec_driver_contends (L := .ao) (by decide) hr hh⟩⟩

/-- Settles O21: the value that CO drives is the old `C`. -/
theorem coDrivesTheCounter : Obligations.CoDrivesTheCounter :=
  ⟨rfl, fun _ _ hr hh =>
    ⟨exec_driver_alone (L := .co) (by decide) hr hh, exec_driver_contends (L := .co) (by decide) hr hh⟩⟩

theorem drivenBy_eo_of_not_su (h : l.su = false) (s : State) :
    drivenBy l s .eo = some (BitVec.ofNat 8 ((s.a.toNat + s.b.toNat) % 256)) := by
  have hmod : BitVec.ofNat 8 ((s.a.toNat + s.b.toNat) % 256) = BitVec.ofNat 8 (s.a.toNat + s.b.toNat) := by
    apply BitVec.eq_of_toNat_eq
    simp
  rw [hmod, drivenBy, h]
  rfl

theorem drivenBy_eo_of_su (h : l.su = true) (s : State) :
    drivenBy l s .eo = some (BitVec.ofInt 8 ((s.a.toNat : Int) - s.b.toNat)) := by
  rw [drivenBy, if_pos h]

/-- The difference modulo 256, written without negative numbers. -/
theorem ofInt_sub_eq (a b : Byte) :
    BitVec.ofInt 8 ((a.toNat : Int) - b.toNat) = BitVec.ofNat 8 ((a.toNat + 256 - b.toNat) % 256) := by
  apply BitVec.eq_of_toNat_eq
  simp only [BitVec.toNat_ofInt, BitVec.toNat_ofNat]
  omega

/-- Settles O20: SU chooses between the sum and the difference that EO drives. -/
theorem eoDrivesTheSumOrDifference : Obligations.EoDrivesTheSumOrDifference := by
  refine ⟨rfl, fun others s hr hh => ⟨fun hd hsu => ?_, fun hd hsu => ?_,
    exec_driver_contends (L := .eo) (by decide) hr hh⟩⟩
  · rw [← drivenBy_eo_of_not_su (l := others.assert .eo) hsu]
    exact exec_driver_alone (L := .eo) (by decide) hr hh hd
  · rw [← ofInt_sub_eq, ← drivenBy_eo_of_su (l := others.assert .eo) hsu]
    exact exec_driver_alone (L := .eo) (by decide) hr hh hd

/-! ### The consuming lines -/

/-- R160 to R167: a consumer in a word with one driver. -/
theorem exec_consumer_driven (hL : L ∈ [Line.mi, .ri, .ii, .ai, .bi, .oi, .j]) (hr : s.status = .running)
    (hh : others.hlt = false) (hd : (others.assert L).drivers.length = 1) (hb : busOf (others.assert L) s = some v) :
    exec (.ofLine L others) s = .next (settled (others.assert L) (some v) s) := by
  have hnohlt := (Lines.hlt_assert others (ne_of_mem_of_not_mem hL (by decide))).trans hh
  have hc := Lines.wordClass_of_one_driver hnohlt hd
  rw [exec_of_wellFormed (ofLine_lines L others) hr hc, hb]

/-- R126: a consumer without a driver. -/
theorem exec_consumer_floats (hL : L ∈ [Line.mi, .ri, .ii, .ai, .bi, .oi, .j]) (hr : s.status = .running)
    (hh : others.hlt = false) (hd : (others.assert L).drivers = []) :
    exec (.ofLine L others) s = .next (raise .floatingBus s) := by
  have hnohlt := (Lines.hlt_assert others (ne_of_mem_of_not_mem hL (by decide))).trans hh
  exact exec_of_floating (ofLine_lines L others) hr
    (Lines.wordClass_of_floating hnohlt hd (List.ne_nil_of_mem (Lines.mem_consumers_assert others hL)))

/-- Settles O23: the low nibble of the bus is the bus modulo 16. -/
theorem miLoadsTheAddressRegister : Obligations.MiLoadsTheAddressRegister :=
  ⟨rfl, fun _ _ v hr hh =>
    ⟨fun hd hb => ⟨exec_consumer_driven (L := .mi) (by decide) hr hh hd hb, BitVec.toNat_ofNat v.toNat 4⟩,
      exec_consumer_floats (L := .mi) (by decide) hr hh⟩⟩

/-- Settles O24: the store address does not depend on RI, and memory is read after the write. -/
theorem riStoresTheBus : Obligations.RiStoresTheBus :=
  fun others _ _ hr hh =>
    ⟨fun hd hb => ⟨exec_consumer_driven (L := .ri) (by decide) hr hh hd hb,
      memRead_settled_storeAddress (l := others.assert .ri) rfl,
      fun _ => memRead_settled_ne (l := others.assert .ri)⟩,
      exec_consumer_floats (L := .ri) (by decide) hr hh⟩

/-- Settles O25: the flags of the index stay, its opcode is the new one and its micro-step number the next. -/
theorem iiLoadsTheInstructionRegister : Obligations.IiLoadsTheInstructionRegister :=
  ⟨rfl, fun _ _ _ hr hh =>
    ⟨fun hd hb => ⟨exec_consumer_driven (L := .ii) (by decide) hr hh hd hb, rfl, by
      rw [State.index, settled_zf, settled_cf, settled_t]; rfl⟩,
      exec_consumer_floats (L := .ii) (by decide) hr hh⟩⟩

/-- Settles O26: `A` is read off the settled state, which has the old flags. -/
theorem aiLoadsTheAccumulator : Obligations.AiLoadsTheAccumulator :=
  ⟨rfl, fun _ _ _ hr hh =>
    ⟨fun hd hb => ⟨exec_consumer_driven (L := .ai) (by decide) hr hh hd hb, rfl, settled_zf, settled_cf⟩,
      exec_consumer_floats (L := .ai) (by decide) hr hh⟩⟩

/-- Settles O27: `B` is read off the settled state, which has the old flags. -/
theorem biLoadsTheSecondOperand : Obligations.BiLoadsTheSecondOperand :=
  ⟨rfl, fun _ _ _ hr hh =>
    ⟨fun hd hb => ⟨exec_consumer_driven (L := .bi) (by decide) hr hh hd hb, rfl, settled_zf, settled_cf⟩,
      exec_consumer_floats (L := .bi) (by decide) hr hh⟩⟩

/-- Settles O28: one value more in the trace is one line more at the sink. -/
theorem oiEmitsTheBus : Obligations.OiEmitsTheBus :=
  ⟨rfl, fun _ _ _ hr hh =>
    ⟨fun hd hb => ⟨exec_consumer_driven (L := .oi) (by decide) hr hh hd hb, rfl, sinkText_settled_of_oi rfl⟩,
      exec_consumer_floats (L := .oi) (by decide) hr hh⟩⟩

/-- Settles O29: CE of the same word counts from the bus value modulo 16. -/
theorem jumpLoadsTheCounter : Obligations.JumpLoadsTheCounter := by
  refine fun others s v hr hh => ⟨fun hd hb => ⟨exec_consumer_driven (L := .j) (by decide) hr hh hd hb, ?_⟩,
    exec_consumer_floats (L := .j) (by decide) hr hh⟩
  have hc : (settled (others.assert .j) (some v) s).c = BitVec.ofNat 4 v.toNat + if others.ce then 1 else 0 :=
    settled_some_c
  rw [hc, BitVec.toNat_add, BitVec.toNat_ofNat]
  cases others.ce <;> rfl

/-! ### SU, CE and FI -/

/-- R144: SU is read by EO alone. -/
theorem busOf_clear_su (h : l.eo = false) (s : State) : busOf (l.clear .su) s = busOf l s := by
  refine Option.bind_congr fun L hL => ?_
  cases L with
  | eo =>
    have heo : l.eo = true := (List.mem_filter.1 (List.mem_of_mem_head? hL)).2
    simp [h] at heo
  | _ => rfl

theorem performed_clear_su (h : l.eo = false) (s : State) : performed (l.clear .su) s = performed l s := by
  have hclass : (l.clear .su).wordClass = l.wordClass := rfl
  rw [performed_eq, performed_eq, hclass, busOf_clear_su h]
  rfl

/-- R181: no class, no bus value and no settled state looks at FI. -/
theorem performed_clear_fi (l : Lines) (s : State) : performed (l.clear .fi) s = performed l s := by
  have hclass : (l.clear .fi).wordClass = l.wordClass := rfl
  rw [performed_eq, performed_eq, hclass]
  rfl

/-- Instructions do the same where the words of their lines do. -/
theorem exec_congr {j : Instr} {k : Lines} (hi : i.lines? = some l) (hj : j.lines? = some k)
    (h : performed l s = performed k s) : exec i s = exec j s := by
  rw [exec_controlWord hi, exec_controlWord hj, performWord, performWord, h]

/-- Settles O22: without EO the two words perform as the one with SU taken out; with EO the class leaves no other
driver. -/
theorem suOnlyModifiesEo : Obligations.SuOnlyModifiesEo := by
  refine ⟨fun i j li lj s hi hj heo he => exec_congr hi hj ?_, fun others s hr hc =>
    ⟨exec_of_wellFormed (ofLine_lines .su others) hr hc, fun heo => ?_⟩⟩
  · have heo' : lj.eo = false := (congrArg Lines.eo he).symm.trans heo
    rw [← performed_clear_su heo, he, performed_clear_su heo']
  · obtain ⟨-, hlen, -⟩ := Lines.wordClass_eq_wellFormed.1 hc
    have hmem : Line.eo ∈ (others.assert .su).drivers := List.mem_filter.2 ⟨by decide, heo⟩
    rw [busOf_of_drivers (Lines.drivers_eq_singleton hmem hlen), drivenBy_eo_of_su rfl]

/-- R79, R190: a word with an empty bus and without CE advances `T` and does nothing else. -/
theorem settled_none_of_not_ce (h : l.ce = false) (s : State) : settled l none s = advance s := by
  simp [settled, advance, h, BitVec.ofNat_add]

/-- Settles O31: both words perform as the one with FI taken out, and FI alone leaves the bus empty. -/
theorem fiChangesNothing : Obligations.FiChangesNothing := by
  refine ⟨rfl, fun i j li lj s hi hj he => exec_congr hi hj ?_, fun s hr => ⟨?_, fun others hc =>
    exec_of_wellFormed (ofLine_lines .fi others) hr hc⟩⟩
  · rw [← performed_clear_fi li, he, performed_clear_fi]
  · exact (exec_of_wellFormed (ofLine_lines .fi {}) hr (by decide)).trans
      (congrArg _ (settled_none_of_not_ce rfl s))

/-- R180: CE alone counts `C` and advances `T`. -/
theorem performed_ce_alone (s : State) : performed { ce := true } s = { s with c := s.c + 1, t := s.t + 1 } := by
  have hclass : ({ ce := true } : Lines).wordClass = .wellFormed := by decide
  have hbus : busOf { ce := true } s = none := rfl
  rw [performed_eq, hclass, hbus]
  simp [settled, BitVec.ofNat_add]

theorem iterate_performed_ce_alone (n : Nat) (s : State) :
    (performed { ce := true })^[n] s = { s with c := s.c + BitVec.ofNat 4 n, t := s.t + BitVec.ofNat 3 n } := by
  induction n with
  | zero => simp
  | succ n ih =>
    rw [Function.iterate_succ_apply', ih, performed_ce_alone]
    simp [BitVec.ofNat_add, add_assoc]

/-- Settles O30: the class does not look at CE, a word that is not well-formed raises, and 16 is 0 modulo 16 and
modulo 8. -/
theorem ceCountsModulo16 : Obligations.CeCountsModulo16 := by
  refine ⟨rfl, fun others s hr => ⟨rfl, fun hc => ⟨exec_of_wellFormed (ofLine_lines .ce others) hr hc, fun hj => ?_⟩,
    fun hc => ?_⟩, fun s => ?_⟩
  · have hce : (others.assert .ce).ce = true := rfl
    rw [settled_c_of_not_j (l := others.assert .ce) hj, if_pos hce, BitVec.toNat_add]
    rfl
  · obtain ⟨hwf, -⟩ | ⟨-, x, hp⟩ := performed_settles_or_raises (others.assert .ce) s
    · exact absurd hwf hc
    · exact ⟨x, (exec_running (ofLine_lines .ce others) hr).trans (congrArg _ hp)⟩
  · simp [iterate_performed_ce_alone]

/-! ### A store and the fetch after it -/

/-- Settles O38: `M` addresses the stored cell after the store, and RO drives the cell that `M` addresses. -/
theorem storeIsSeenByTheNextFetch : Obligations.StoreIsSeenByTheNextFetch := by
  intro i l s s' v hi hc hri hb hmem h
  obtain ⟨hr, -⟩ := exec_controlWord_next hi h
  rw [exec_of_wellFormed hi hr hc, hb] at h
  obtain rfl := Host.Outcome.next.inj h
  have hm : (settled l (some v) s).m = storeAddress l v s := rfl
  have hread := memRead_settled_storeAddress (v := v) hri hmem
  rw [← hm] at hread
  exact ⟨hm, _, exec_consumer_driven (L := .ii) (by decide) ((settled_status _ _ s).trans hr) rfl rfl rfl, hread⟩

end Machine
end Sys2Proof

/-! ### Reset -/

namespace Sys2Proof.Machine

/-- Settles O1: the fields of the created state, and the empty memory reads 0 everywhere. -/
theorem resetStateIsZeroed : Obligations.ResetStateIsZeroed :=
  ⟨fun _ => ⟨rfl, rfl, rfl, rfl, rfl, rfl, rfl, fun _ => rfl, rfl, rfl, rfl, rfl⟩, rfl⟩

theorem inv_create (cfg : Config) : (State.create cfg).Inv := ⟨wf_nil, rfl, rfl⟩

/-- Settles O44: reset is a creation, with the supplied configuration. -/
theorem createdStateMeetsTheInvariant : Obligations.CreatedStateMeetsTheInvariant :=
  ⟨inv_create, inv_create Config.supplied⟩

/-- Settles O5: twelve evaluations of the decoder. -/
theorem tableWordsDecodeToTheirRows : Obligations.TableWordsDecodeToTheirRows := by
  unfold Obligations.TableWordsDecodeToTheirRows
  decide

/-- Settles O10: exclusive-or with the mask undoes itself. -/
theorem inversionIsABijection : Obligations.InversionIsABijection := by
  intro mask wanted raw
  constructor
  · rintro rfl
    rw [effectiveWord, BitVec.xor_assoc, BitVec.xor_self, BitVec.xor_zero]
  · rintro rfl
    rw [effectiveWord, BitVec.xor_assoc, BitVec.xor_self, BitVec.xor_zero]

/-! ### The sink -/

theorem digitByte_toNat {d : Nat} (h : d < 10) : (digitByte d).toNat = 48 + d := by
  rw [digitByte, BitVec.toNat_ofNat]
  omega

/-- R33: one, two or three digits, as the value needs them. -/
theorem decimalText_toNat (v : Byte) : (decimalText v).map BitVec.toNat =
    if v = 0 then [48] else ((Nat.digits 10 v.toNat).map (48 + ·)).reverse := by
  have hv : v = 0 ↔ v.toNat = 0 := by rw [← BitVec.toNat_inj]; rfl
  have hlt := v.isLt
  simp only [hv, decimalText]
  generalize v.toNat = n at hlt
  split_ifs with h10 h0 h0 h100
  · rw [h0, List.map_singleton, digitByte_toNat (by omega)]
  · rw [Nat.digits_of_lt 10 n h0 h10, List.map_singleton, digitByte_toNat h10]
    rfl
  · omega
  · rw [Nat.digits_def' (by omega) (by omega), Nat.digits_of_lt 10 (n / 10) (by omega) (by omega)]
    simp [digitByte_toNat (by omega : n / 10 < 10), digitByte_toNat (by omega : n % 10 < 10)]
  · omega
  · have hdiv : n / 10 / 10 = n / 100 := Nat.div_div_eq_div_mul n 10 10
    rw [Nat.digits_def' (by omega) (by omega), Nat.digits_def' (by omega) (by omega), hdiv,
      Nat.digits_of_lt 10 (n / 100) (by omega) (by omega)]
    simp [digitByte_toNat (by omega : n / 100 < 10), digitByte_toNat (by omega : n / 10 % 10 < 10),
      digitByte_toNat (by omega : n % 10 < 10)]

/-- Settles O49: the sink's text is one line for each value, and the digits are `decimalText_toNat`. -/
theorem sinkTextIsDecimal : Obligations.SinkTextIsDecimal :=
  ⟨fun _ => List.flatMap_def, decimalText_toNat⟩

/-! ### What every micro-step keeps -/

section
variable {α : Type} {f : State → α} {s s' : State} {n : Nat} {l : Lines} {bus : Option Byte} {x : Condition}

/-- What a raise keeps, and the settled states of the words that a run performs keep, the whole run keeps. -/
theorem microSteps_keep {P : Lines → State → Prop} (hset : ∀ l u, P l u → f (settled l (busOf l u) u) = f u)
    (hraise : ∀ x u, f (raise x u) = f u)
    (hP : ∀ k < n, (microSteps k s).status = .running → ∀ l,
      linesAt (microSteps k s).cfg (microSteps k s).index = some l → l.wordClass = .wellFormed → P l (microSteps k s)) :
    f (microSteps n s) = f s := by
  induction n generalizing s with
  | zero => rfl
  | succ n ih =>
    by_cases hr : s.status = .running
    · have hrest : f (microSteps n (microStep s)) = f (microStep s) :=
        ih fun k hk => by simpa only [microSteps_succ hr] using hP (k + 1) (by omega)
      rw [microSteps_succ hr, hrest]
      obtain ⟨l, hl, hc, h⟩ | ⟨x, h⟩ := microStep_settles_or_raises s
      · rw [h, hset l s (hP 0 (by omega) hr l hl hc)]
      · rw [h, hraise]
    · rw [microSteps_of_stopped hr]

/-- What every word keeps, the run keeps. -/
theorem microSteps_keep_always (hset : ∀ l bus u, f (settled l bus u) = f u) (hraise : ∀ x u, f (raise x u) = f u) :
    f (microSteps n s) = f s :=
  microSteps_keep (P := fun _ _ => True) (fun l u _ => hset l _ u) hraise fun _ _ _ _ _ _ => trivial

@[simp] theorem microSteps_zf : (microSteps n s).zf = s.zf :=
  microSteps_keep_always (f := State.zf) (fun _ _ _ => settled_zf) fun _ _ => rfl
@[simp] theorem microSteps_cf : (microSteps n s).cf = s.cf :=
  microSteps_keep_always (f := State.cf) (fun _ _ _ => settled_cf) fun _ _ => rfl
@[simp] theorem microSteps_cfg : (microSteps n s).cfg = s.cfg :=
  microSteps_keep_always (f := State.cfg) (fun _ _ _ => settled_cfg) fun _ _ => rfl
@[simp] theorem microSteps_call : (microSteps n s).call = s.call :=
  microSteps_keep_always (f := State.call) (fun _ _ _ => settled_call) fun _ _ => rfl

/-- What no word of the tables writes stays (R27). -/
theorem microSteps_keep_of_tables {p : Lines → Prop} (hset : ∀ l bus u, p l → f (settled l bus u) = f u)
    (hraise : ∀ x u, f (raise x u) = f u) (htab : ∀ idx l, linesAt s.cfg idx = some l → p l) :
    f (microSteps n s) = f s :=
  microSteps_keep (P := fun l _ => p l) (fun l u => hset l _ u) hraise
    fun k _ _ l hl _ => htab _ l (microSteps_cfg (n := k) (s := s) ▸ hl)

/-- R33: each micro-step appends at most one value to the trace. -/
theorem microSteps_out_append (n : Nat) (s : State) :
    ∃ new, (microSteps n s).out = s.out ++ new ∧ new.length ≤ n := by
  induction n generalizing s with
  | zero => exact ⟨[], by simp⟩
  | succ n ih =>
    by_cases hr : s.status = .running
    · obtain ⟨rest, hrest, hlen⟩ := ih (microStep s)
      rw [microSteps_succ hr, hrest]
      obtain ⟨l, -, -, h⟩ | ⟨x, h⟩ := microStep_settles_or_raises s
      · obtain ⟨new, hnew, hone⟩ := settled_out_append l (busOf l s) s
        exact ⟨new ++ rest, by rw [h, hnew, List.append_assoc], by rw [List.length_append]; omega⟩
      · exact ⟨rest, by rw [h, raise_out], by omega⟩
    · exact ⟨[], by rw [microSteps_of_stopped hr, List.append_nil], by simp⟩

/-- R190: micro-steps that raised nothing advanced `T` each. -/
theorem microSteps_t_of_running (h : (microSteps n s).status = .running) :
    (microSteps n s).t = s.t + BitVec.ofNat 3 n := by
  induction n generalizing s with
  | zero => simp
  | succ n ih =>
    by_cases hr : s.status = .running
    · rw [microSteps_succ hr] at h ⊢
      obtain ⟨-, ht⟩ | ⟨x, hx⟩ := microStep_advances_or_raises s
      · rw [ih h, ht, BitVec.ofNat_add, add_assoc, add_comm 1]
        rfl
      · rw [hx, microSteps_of_stopped (by simp), raise_status] at h
        cases h
    · exact absurd (microSteps_of_stopped hr ▸ h) hr

theorem microSteps_add (k n : Nat) (s : State) : microSteps (k + n) s = microSteps n (microSteps k s) := by
  induction k generalizing s with
  | zero => rw [Nat.zero_add, microSteps_zero]
  | succ k ih =>
    by_cases hr : s.status = .running
    · rw [Nat.succ_add, microSteps_succ hr, microSteps_succ hr, ih]
    · simp only [microSteps_of_stopped hr]

/-! ### The steps of the machine -/

/-- Every step that has a next state is a run of micro-steps. -/
theorem step_next_microSteps (h : step s = .next s') : ∃ n, s' = microSteps n s := by
  obtain ⟨hr, ⟨-, h⟩ | ⟨-, -, h⟩⟩ := step_next_cases h
  · exact ⟨1, by rw [h, microSteps_succ hr, microSteps_zero]⟩
  · exact ⟨8, h⟩

/-- Settles O45: no micro-step writes these fields. -/
theorem noStepWritesFlagsOrConfiguration : Obligations.NoStepWritesFlagsOrConfiguration := by
  intro s s' h
  obtain ⟨n, rfl⟩ := step_next_microSteps h
  exact ⟨microSteps_zf, microSteps_cf, microSteps_cfg, microSteps_call⟩

theorem wf_settled (l : Lines) (bus : Option Byte) (h : Memory.wf s.mem) : Memory.wf (settled l bus s).mem := by
  cases bus with
  | none => exact h
  | some v =>
    rw [settled_some_mem]
    split
    · exact wf_memWrite _ v h
    · exact h

theorem inv_microStep (h : s.Inv) : (microStep s).Inv := by
  obtain ⟨hmem, hzf, hcf⟩ := h
  obtain ⟨l, -, -, h⟩ | ⟨x, h⟩ := microStep_settles_or_raises s
  · rw [h]
    exact ⟨wf_settled l _ hmem, settled_zf.trans hzf, settled_cf.trans hcf⟩
  · rw [h]
    exact ⟨hmem, hzf, hcf⟩

/-- Settles O43: `inv_microStep`, for the one micro-step or for each of a cycle. -/
theorem stepKeepsTheInvariant : Obligations.StepKeepsTheInvariant :=
  fun _ _ hi h => step_keeps (P := State.Inv) (fun _ _ => inv_microStep) hi h

/-- Both bounds of R213, D5: the index is below 896, and below 128 with clear flags. -/
def TablesCoverTheIndex (s : State) : Prop :=
  (896 ≤ s.cfg.tableLo.length ∧ 896 ≤ s.cfg.tableHi.length) ∨
    (s.zf = false ∧ s.cf = false ∧ 128 ≤ s.cfg.tableLo.length ∧ 128 ≤ s.cfg.tableHi.length)

/-- Where the tables cover the index there is a word at it. -/
theorem linesAt_ne_none_of_cover (h : TablesCoverTheIndex s) : linesAt s.cfg s.index ≠ none := by
  intro hnone
  obtain ⟨-, hlen⟩ := tableRead_error_eq (tableRead_of_linesAt_none hnone)
  have hidx : s.index.toNat = 512 * s.zf.toNat + 256 * s.cf.toNat + 8 * (s.i.toNat / 16) + s.t.toNat :=
    tableIndex_toNat s.zf s.cf s.i s.t
  have hzf := s.zf.toNat_le
  have hcf := s.cf.toNat_le
  obtain ⟨hlo, hhi⟩ | ⟨hz, hc, hlo, hhi⟩ := h
  · omega
  · rw [hz, hc, Bool.toNat_false] at hidx
    omega

/-- A word raises no condition of the fetch. -/
theorem performed_status_ne {idx : TableIndex} (hr : s.status = .running) :
    (performed l s).status ≠ .stopped (.indexOutOfRange idx) := by
  rw [performed_eq]
  cases l.wordClass <;> simp [settled_status, hr]

/-- Settles O15: a micro-step that raised IndexOutOfRange started from covering tables, and performed a word. -/
theorem longTablesNeverRunOut : Obligations.LongTablesNeverRunOut := by
  intro s s' idx hcover h hx
  obtain ⟨hr, -⟩ := step_next_cases h
  obtain ⟨n, rfl⟩ := step_next_microSteps h
  obtain ⟨k, -, hrun, -, hraise, -⟩ := microSteps_stopped_at hr hx
  have hcover' : TablesCoverTheIndex (microSteps k s) := by simpa [TablesCoverTheIndex] using hcover
  obtain ⟨l, hl⟩ := Option.ne_none_iff_exists'.1 (linesAt_ne_none_of_cover hcover')
  rw [microStep_of_linesAt hl] at hraise
  exact performed_status_ne hrun (congrArg State.status hraise)

/-- A step asked for as a micro-step is that of R190. -/
theorem step_of_microStep (hr : s.status = .running) (hc : s.call = .microStep) : step s = runFetched exec s := by
  rw [step, runNext, whenRunning_running hr, hc]

theorem step_eq_microStep (hr : s.status = .running) (hc : s.call = .microStep) : step s = .next (microStep s) :=
  (step_of_microStep hr hc).trans (runFetched_eq hr)

/-- R79: the word with no line only advances `T`. -/
theorem performed_empty (s : State) : performed Lines.empty s = advance s := by
  have hclass : Lines.empty.wordClass = .wellFormed := by decide
  have hbus : busOf Lines.empty s = none := rfl
  rw [performed_eq, hclass, hbus]
  exact settled_none_of_not_ce rfl s

/-- Settles O39: the branches of the fetch and of the decoder, one after another. -/
theorem stepRunsTheDecodedInstruction : Obligations.StepRunsTheDecodedInstruction := by
  refine fun s hr => ⟨fun hc cw hf => ⟨fun i hi => ?_, fun e he => ?_⟩, fun hc x hf => ?_, step_of_instructionCycle hr⟩
  · rw [step_of_microStep hr hc, runFetched, hf]
    simp only [hi]
  · obtain ⟨hempty, -⟩ := instrOfLines_error.1 he
    rw [step_eq_microStep hr hc, microStep, hf]
    simp only [hempty, performed_empty, advance]
  · rw [step_eq_microStep hr hc, microStep, hf]
    rfl

/-! ### The placed word -/

theorem getElem?_tableImage (idx : Nat) (b : Byte) : (tableImage idx b)[idx]? = some b := by
  simp [tableImage]

/-- Log entry 16: the loaded tables hold, at the index, the word of the given lines. -/
theorem fetchWord_loadControlWord (l : Lines) (s : State) :
    fetchWord (loadControlWord l s) = .ok (wordOf s.cfg.lineBit l) := by
  have hindex : (loadControlWord l s).index = s.index := rfl
  have hread : tableRead (loadControlWord l s).cfg s.index =
      .ok (lowByte (wordOf s.cfg.lineBit l), highByte (wordOf s.cfg.lineBit l)) := by
    simp [tableRead, loadControlWord, getElem?_tableImage]
  rw [fetchWord, hindex, hread]
  simp only [rawWord_bytes, effectiveWord]
  exact congrArg _ BitVec.xor_zero

/-- The decoder of the table's numbers, by the length of the row. -/
theorem decodeTableWord_cases {nbits w : Nat} {i : Instr} (h : decodeTableWord nbits w = some i) :
    (nbits = 8 ∧ i = decodeInstructionByte (BitVec.ofNat 8 w)) ∨
      (nbits ≠ 8 ∧ instrOfLines (linesOf LineBit.default (BitVec.ofNat 16 w)) = .ok i) := by
  unfold decodeTableWord at h
  split_ifs at h with h8 h16
  · exact .inl ⟨h8.1, (Option.some.inj h).symm⟩
  · refine .inr ⟨by omega, ?_⟩
    rw [decode, rawWord_bytes, decodeControlWord] at h
    cases hd : instrOfLines (linesOf LineBit.default (BitVec.ofNat 16 w)) with
    | ok j =>
      rw [hd] at h
      exact congrArg Except.ok (Option.some.inj h)
    | error e =>
      rw [hd] at h
      cases h

/-- Settles O40: a placed byte is run as the cycle asked for, a placed word is fetched and decoded under the positions
of the state. -/
theorem placedWordRunsNext : Obligations.PlacedWordRunsNext := by
  intro s nbits w i hlb h
  unfold State.withFetchWord
  obtain ⟨rfl, rfl⟩ | ⟨hn, hi⟩ := decodeTableWord_cases h
  · exact step_of_instructionCycle (s := loadInstructionByte (BitVec.ofNat 8 w) s) rfl rfl
  · rw [if_neg hn]
    generalize linesOf LineBit.default (BitVec.ofNat 16 w) = l at hi
    obtain ⟨hfetched, -, -⟩ := stepRunsTheDecodedInstruction (loadControlWord l s) rfl
    obtain ⟨hdecoded, -⟩ := hfetched rfl _ (fetchWord_loadControlWord l s)
    exact hdecoded i (by rw [decodeControlWord]; exact (congrArg _ (linesOf_wordOf hlb l)).trans hi)

/-! ### Stopped engines -/

theorem exec_stopped (i : Instr) (h : s.status = .stopped x) : exec i s = stoppedOutcome x := by
  cases hl : i.lines? with
  | some l => rw [exec_controlWord hl, performWord, whenRunning_stopped h]
  | none =>
    cases i <;> cases hl
    rw [exec_instr, execInstr, whenRunning_stopped h]

theorem step_stopped (h : s.status = .stopped x) : step s = stoppedOutcome x :=
  whenRunning_stopped h

/-- Settles O41: both answer `stoppedOutcome`, which is no next state. -/
theorem stoppedEngineHasNoTransition : Obligations.StoppedEngineHasNoTransition := by
  refine fun s x hx => ⟨fun s' => ?_, fun i s' => ?_, fun hfinal => step_stopped hfinal, fun ⟨c, hc, hs⟩ => ?_⟩
  · rw [step_stopped hx]
    exact stoppedOutcome_ne_next
  · rw [exec_stopped i hx]
    exact stoppedOutcome_ne_next
  · rw [step_stopped hs]
    cases c with
    | haltAndCatchFire => exact absurd rfl hc
    | floatingBus | busContention | indexOutOfRange => exact ⟨_, rfl⟩

/-- Settles O42: the engine runs, and the boundary test of the cycle fails. -/
theorem midCycleInstructionIsRefused : Obligations.MidCycleInstructionIsRefused := by
  intro opcode imm s hr ht
  rw [exec_instr, execInstr, whenRunning_running hr, if_neg ht]

/-! ### Conditions and ports -/

/-- R211: states that agree on where the word is fetched from stop alike and advance `T` alike. -/
theorem microStep_status_t_congr (hs : s.status = s'.status) (hcfg : s.cfg = s'.cfg) (hidx : s.index = s'.index)
    (ht : s.t = s'.t) : (microStep s).status = (microStep s').status ∧ (microStep s).t = (microStep s').t := by
  cases hl : linesAt s.cfg s.index with
  | none =>
    rw [microStep_of_linesAt_none hl, microStep_of_linesAt_none (hcfg ▸ hidx ▸ hl)]
    simp [hidx, ht]
  | some l =>
    rw [microStep_of_linesAt hl, microStep_of_linesAt (hcfg ▸ hidx ▸ hl), performed_eq, performed_eq]
    cases l.wordClass <;> simp [settled_status, hs, ht]

/-- Settles O47: the index reads the flags, the opcode and `T`. -/
theorem conditionsIgnoreTheData : Obligations.ConditionsIgnoreTheData := by
  intro s s' hr hr' hc hc' hcfg hzf hcf hop ht
  exact ⟨_, _, step_eq_microStep hr hc, step_eq_microStep hr' hc',
    microStep_status_t_congr (hr.trans hr'.symm) hcfg (index_congr hzf hcf hop ht) ht⟩

/-- R253: the output port shows the bus value of a well-formed word with OI. -/
theorem emittedNext_of_linesAt (hr : s.status = .running) (hl : linesAt s.cfg s.index = some l) :
    emittedNext s = if l.wordClass = .wellFormed ∧ l.oi = true then busOf l s else none := by
  rw [emittedNext, if_pos hr, microStep_of_linesAt hl]
  obtain ⟨hc, hp⟩ | ⟨hc, x, hp⟩ := performed_settles_or_raises l s
  · rw [hp]
    cases hoi : l.oi with
    | false => simp [settled_out_of_not_oi hoi]
    | true => cases hb : busOf l s <;> simp [hc, hoi]
  · simp [hp, hc]

/-- R253: nothing is emitted where nothing is performed. -/
theorem emittedNext_eq_none (h : s.status ≠ .running ∨ linesAt s.cfg s.index = none) : emittedNext s = none := by
  by_cases hr : s.status = .running
  · simp [emittedNext, hr, microStep_of_linesAt_none (h.resolve_left (not_not.2 hr))]
  · rw [emittedNext, if_neg hr]

/-- Settles O48: the table port is the table read, and the numbers of the status port are evaluated. -/
theorem portsShowIndexAndEmission : Obligations.PortsShowIndexAndEmission := by
  refine fun s => ⟨rfl, fun hlo hhi => ?_, fun hlen => ?_,
    fun h => congrArg statusNumber h, fun h => congrArg statusNumber h, fun h => congrArg statusNumber h,
    fun h => congrArg statusNumber h, fun _ h => congrArg statusNumber h,
    fun l hr hl => emittedNext_of_linesAt hr hl, emittedNext_eq_none⟩
  · exact congrArg Except.toOption (tableRead_ok hlo hhi)
  · exact congrArg Except.toOption (tableRead_error hlen)

end

end Sys2Proof.Machine

/-! ### The instruction cycle -/

namespace Sys2Proof.Machine

variable {s s' : State} {l : Lines}

/-- What no word of the tables writes, the cycle leaves as it was with the instruction's byte in `I` (log entry 14). -/
theorem execInstr_keep {α : Type} {f : State → α} {p : Lines → Prop} {opcode imm : Nibble}
    (h : execInstr opcode imm s = .next s') (hset : ∀ l bus u, p l → f (settled l bus u) = f u)
    (hraise : ∀ x u, f (raise x u) = f u) (htab : ∀ idx l, linesAt s.cfg idx = some l → p l) :
    f s' = f { s with i := instructionByte opcode imm } := by
  obtain ⟨-, -, rfl⟩ := execInstr_next h
  exact microSteps_keep_of_tables hset hraise htab

/-- Settles O36: no word writes the flags, the configuration and the request, and the other fields go by the lines that
write them. -/
theorem instructionCycleFrame : Obligations.InstructionCycleFrame := by
  intro opcode imm s s' h
  obtain ⟨-, -, rfl⟩ := execInstr_next h
  refine ⟨microSteps_zf, microSteps_cf, microSteps_cfg, microSteps_call, microSteps_out_append 8 _,
    ?_, ?_, ?_, ?_, ?_, ?_, ?_⟩
  · exact execInstr_keep (f := State.out) h (fun _ _ _ => settled_out_of_not_oi) (fun _ _ => rfl)
  · exact execInstr_keep (f := State.a) h (fun _ _ _ => settled_a_of_not_ai) (fun _ _ => rfl)
  · exact execInstr_keep (f := State.b) h (fun _ _ _ => settled_b_of_not_bi) (fun _ _ => rfl)
  · exact execInstr_keep (f := State.m) h (fun _ _ _ => settled_m_of_not_mi) (fun _ _ => rfl)
  · exact execInstr_keep (f := State.i) h (fun _ _ _ => settled_i_of_not_ii) (fun _ _ => rfl)
  · exact execInstr_keep (f := State.c) h (fun _ _ _ ⟨hj, hce⟩ => settled_c_of_not_j_ce hj hce) (fun _ _ => rfl)
  · intro htab addr
    rw [execInstr_keep (f := State.mem) h (fun _ _ _ => settled_mem_of_not_ri) (fun _ _ => rfl) htab]

/-- A word keeps every cell that it does not store to. -/
theorem memRead_settled_of_no_store {addr : Nibble}
    (h : l.ri = true → ∀ v, busOf l s = some v → addr ≠ storeAddress l v s) :
    memRead (settled l (busOf l s) s).mem addr = memRead s.mem addr := by
  cases hri : l.ri with
  | false => rw [settled_mem_of_not_ri hri]
  | true =>
    cases hb : busOf l s with
    | none => rw [settled_none_mem]
    | some v => exact memRead_settled_ne (h hri v hb)

/-- Settles O37: the cell is kept by each word that the cycle performs. -/
theorem cycleStoresOnlyWhereItsWordsStore : Obligations.CycleStoresOnlyWhereItsWordsStore := by
  intro opcode imm s s' addr h hstores
  obtain ⟨-, -, rfl⟩ := execInstr_next h
  exact microSteps_keep (f := fun u => memRead u.mem addr)
    (P := fun l u => l.ri = true → ∀ v, busOf l u = some v → addr ≠ storeAddress l v u)
    (fun _ _ => memRead_settled_of_no_store) (fun _ _ => rfl)
    fun k hk hr l hl hc hri v hb => hstores k hk _ rfl hr l v hl hc hri hb

/-- Settles O51: the cycle puts the byte in `I` whatever is there, and eight micro-steps are none modulo 8. -/
theorem cycleReturnsToItsBoundary : Obligations.CycleReturnsToItsBoundary := by
  intro opcode imm s hr ht
  have hexec (u : State) (hru : u.status = .running) (htu : u.t = 0) : exec (.instr opcode imm) u =
      .next (microSteps 8 { u with i := instructionByte opcode imm }) := by
    rw [exec_instr, execInstr, whenRunning_running hru, if_pos htu, nSteps]
  refine ⟨_, hexec s hr ht, ?_, fun hrun => ?_⟩
  · exact (hexec s hr ht).trans (hexec { s with i := _ } hr ht).symm
  · rw [microSteps_t_of_running hrun]
    simp [ht]

/-! ### The fetch convention -/

/-- R195: CO with MI copies `C` into `M`. -/
theorem performed_co_mi (s : State) : performed { co := true, mi := true } s = { s with m := s.c, t := s.t + 1 } := by
  have hclass : ({ co := true, mi := true } : Lines).wordClass = .wellFormed := by decide
  have hbus : busOf { co := true, mi := true } s = some (BitVec.ofNat 8 s.c.toNat) := rfl
  have hm : BitVec.ofNat 4 (s.c.toNat % 256) = s.c := by
    rw [Nat.mod_eq_of_lt (by omega), BitVec.ofNat_toNat, BitVec.setWidth_eq]
  rw [performed_eq, hclass, hbus]
  simp [settled, BitVec.ofNat_add, hm]

/-- R195: RO with II and CE loads `I` from the cell that `M` addresses and counts `C`. -/
theorem performed_ro_ii_ce (s : State) : performed { ro := true, ii := true, ce := true } s =
    { s with i := memRead s.mem s.m, c := s.c + 1, t := s.t + 1 } := by
  have hclass : ({ ro := true, ii := true, ce := true } : Lines).wordClass = .wellFormed := by decide
  have hbus : busOf { ro := true, ii := true, ce := true } s = some (memRead s.mem s.m) := rfl
  rw [performed_eq, hclass, hbus]
  simp [settled, BitVec.ofNat_add]

/-- The two micro-steps of the convention, one after the other. -/
theorem microSteps_two_of_fetchConvention (hr : s.status = .running) (ht : s.t = 0)
    (hconv : fetchConvention s.cfg s.zf s.cf) :
    microSteps 2 s = { s with m := s.c, i := memRead s.mem s.c, c := s.c + 1, t := 2 } := by
  obtain ⟨hzero, hone⟩ := hconv s.i
  have hfirst : microStep s = { s with m := s.c, t := 1 } := by
    rw [microStep_of_linesAt (by rw [State.index, ht, hzero]), performed_co_mi, ht]
    rfl
  have hsecond : microStep { s with m := s.c, t := 1 } =
      { s with m := s.c, i := memRead s.mem s.c, c := s.c + 1, t := 2 } := by
    rw [microStep_of_linesAt (s := { s with m := s.c, t := 1 }) hone, performed_ro_ii_ce]
    rfl
  rw [microSteps_succ hr, hfirst, microSteps_succ (s := { s with m := s.c, t := 1 }) hr, hsecond, microSteps_zero]

/-- Settles O53: asked for micro-steps, the machine's steps are those of `microSteps_two_of_fetchConvention`. -/
theorem fetchConventionLoadsTheInstruction : Obligations.FetchConventionLoadsTheInstruction := by
  intro s hr ht hc hconv
  have hcall (u : State) (hu : u.call = .microStep) : { u with call := .microStep } = u := by rw [← hu]
  have hsteps := stepsWhileRunning_eq_microSteps 2 s
  rw [hcall s hc, microSteps_two_of_fetchConvention hr ht hconv] at hsteps
  rw [hsteps, BitVec.ofNat_add]
  simp [hc]

/-- Micro-steps of words without II, J and CE keep `I` and `C`. -/
theorem microSteps_i_c {n : Nat} (h : ∀ k < n, (microSteps k s).status = .running → ∀ l,
      linesAt (microSteps k s).cfg (microSteps k s).index = some l → l.ii = false ∧ l.j = false ∧ l.ce = false) :
    (microSteps n s).i = s.i ∧ (microSteps n s).c = s.c := by
  have hkeep := microSteps_keep (n := n) (s := s) (f := fun u => (u.i, u.c))
    (P := fun l _ => l.ii = false ∧ l.j = false ∧ l.ce = false)
    (fun l u ⟨hii, hj, hce⟩ => by rw [settled_i_of_not_ii hii, settled_c_of_not_j_ce hj hce]) (fun _ _ => rfl)
    fun k hk hr l hl _ => h k hk hr l hl
  exact Prod.mk.inj hkeep

/-- Settles O54: the first two micro-steps are those of the convention, and the last six keep `I` and `C`. -/
theorem conventionalCycleCountsOnce : Obligations.ConventionalCycleCountsOnce := by
  intro s s' hr hc hconv htab hstep hr'
  obtain ⟨-, ⟨hm, -⟩ | ⟨-, ht, rfl⟩⟩ := step_next_cases hstep
  · rw [hc] at hm
    cases hm
  have htwo := microSteps_two_of_fetchConvention hr ht hconv
  have hsplit : microSteps nSteps s = microSteps 6 (microSteps 2 s) := microSteps_add 2 6 s
  have hT := microSteps_t_of_running hr'
  have hlate : ∀ k < 6, 2 ≤ ((2 : MicroNumber) + BitVec.ofNat 3 k).toNat := by decide
  obtain ⟨hi, hcount⟩ := microSteps_i_c (n := 6) (s := microSteps 2 s) fun k hk hrk l hl => by
    rw [microSteps_cfg, microSteps_cfg, State.index, microSteps_zf, microSteps_zf, microSteps_cf, microSteps_cf] at hl
    refine htab _ _ l ?_ hl
    rw [microSteps_t_of_running hrk, htwo]
    exact hlate k hk
  rw [hsplit, hi, hcount, ← hsplit, hT, htwo]
  exact ⟨rfl, by simp [BitVec.ofNat_add], by rw [ht]; rfl⟩

end Sys2Proof.Machine
